-- ==== Sys2Proof/Word.lean ====
section
/-! DEFINITION. The two word types of the machine: a byte (8 bits) and a W32 pattern (32 bits), R8 and R12 of
spec/00_scope.md. Everything computed on them stands in Sys2Proof/Machine/. -/

namespace Sys2Proof

/-- One byte of memory: 8 bits (R8). -/
abbrev Byte := BitVec 8

/-- A W32: the 32-bit pattern of a register, an immediate, a target or a memory word (R12).  `v.toNat` is the
spec's unsigned reading u(v) and `v.toInt` its signed reading s(v). -/
abbrev Word := BitVec 32

end Sys2Proof
end

