-- ==== Sys2Proof/Machine/Codec.lean ====
section
/-! DEFINITION. The binary codec of R17 and the bit slices of R11: bytes of a word, little- and big-endian encoding and
decoding, the sign bit, and the two nibbles of a byte. -/

namespace Sys2Proof.Machine

/-- R17: `sign_bit(v)` "returns bit 31". -/
def signBit (v : Word) : Bool := v.getLsbD 31

/-- v[8k+7:8k] (R11). -/
def byteOf (v : Word) (k : Nat) : Byte := v.extractLsb' (8 * k) 8

/-- R17: "byte 0 = least-significant byte". -/
def encodeLE (v : Word) : List Byte := [byteOf v 0, byteOf v 1, byteOf v 2, byteOf v 3]

/-- R17: the inverse of `encodeLE`; `b0` stands at the lowest address. -/
def decodeLE (b0 b1 b2 b3 : Byte) : Word := b3 ++ b2 ++ b1 ++ b0

/-- R17: "byte 0 = most-significant byte".  The engine never uses it; it exists for loaders (R54). -/
def encodeBE (v : Word) : List Byte := [byteOf v 3, byteOf v 2, byteOf v 1, byteOf v 0]

/-- R17: the inverse of `encodeBE`. -/
def decodeBE (b0 b1 b2 b3 : Byte) : Word := b0 ++ b1 ++ b2 ++ b3

/-- R11: the high nibble b[7:4]. -/
def highNibble (b : Byte) : BitVec 4 := b.extractLsb' 4 4

/-- R11: the low nibble b[3:0]. -/
def lowNibble (b : Byte) : BitVec 4 := b.extractLsb' 0 4

end Sys2Proof.Machine
end

