-- ==== Sys2Proof/Config.lean ====
section
/-! DEFINITION. What an implementation fixes: the two OPEN parameters of the spec, MEMSIZE (R8, D2) and MAX_STEPS (R9,
D13).  Both stand in State as plain data that no instruction writes, so that a statement about every state holds for
every value of them; this file gives their legal range and the value `State.reset` carries. -/

namespace Sys2Proof.Config

/-- R8: "an integer with 1 <= MEMSIZE <= 2^31 - 1". -/
abbrev LegalMemSize (n : Nat) : Prop := 1 ≤ n ∧ n ≤ 2 ^ 31 - 1

/-- The MEMSIZE that `State.reset` carries.  DESIGN CHOICE, unsafe (notes/assumptions/1.md): the spec leaves MEMSIZE
open; 1024 is the size of the document's own end-to-end example (S8). -/
def resetMemSize : Nat := 1024

/-- The MAX_STEPS that `State.reset` carries: "none", the default of R9. -/
def resetMaxSteps : Option Nat := none

/-- R63: "a run always starts at address 0". -/
def entryPoint : Word := 0

end Sys2Proof.Config
end

