-- ==== Sys2Proof/Machine/State.lean ====
section
/-! DEFINITION. The state of the machine as plain data (spec/10_state.md, R20 to R41), the reasons a step makes no next
state, and the state after reset. -/

namespace Sys2Proof.Machine

/-- The three condition flags (R30): "three independent booleans". -/
structure Flags where
  ZF : Bool
  SF : Bool
  OF : Bool
  deriving DecidableEq, Repr

/-- The status latch (R33): Running, Halted, AddressError, InvalidInstruction under their string forms.  An enumeration
without numbers (R35, D11). -/
inductive Status where
  | AOK
  | HLT
  | ADR
  | INS
  deriving DecidableEq, Repr

/-- The whole architectural state: the six items at the head of spec/10_state.md, and the two open parameters of R8 and
R9, which no instruction reads or writes by name and no step changes. -/
structure State where
  /-- The register file: one array of eight W32 slots (R20, R25). -/
  regs : Vector Word 8
  /-- ZF, SF, OF (R30). -/
  flags : Flags
  /-- The status latch (R33). -/
  status : Status
  /-- The program counter, a signed byte offset of 32 bits (R27, D3). -/
  pc : Word
  /-- The step counter, the spec's `step`, an unbounded natural number (R36, R37, D4). -/
  stepCount : Nat
  /-- MEMSIZE (R8): the number of bytes of memory. -/
  memSize : Nat
  /-- Memory (R39): the bytes that are not zero, addresses rising; every other address below `memSize` reads zero. -/
  mem : List Host.Cell
  /-- MAX_STEPS of the current run (R9, R119): `none` is no limit. -/
  maxSteps : Option Nat
  deriving DecidableEq, Repr

/-- Why `step` has no next state.  None of these is raised by an instruction: an instruction that stops the machine
answers a next state with a terminal status (R15, R235), and the step after that one has nowhere to go (R118). -/
inductive Fault where
  /-- Raised by `step` when the status is already HLT.  Safe: R118, "a model's step relation has no step there". -/
  | halted
  /-- Raised by `step` when the status is already ADR.  Safe: R118. -/
  | addressError
  /-- Raised by `step` when the status is already INS.  Safe: R118. -/
  | invalidInstruction
  /-- Raised by `step` when the optional budget MAX_STEPS is used up: the outcome "step limit exceeded" of R119.  The
  state stays as the last completed iteration left it, status AOK included.  Safe. -/
  | stepLimitExceeded
  deriving DecidableEq, Repr

/-- Why an instruction would have no meaning.  No arm of `exec` is refused. -/
inductive Refusal where
  /-- Raised by an arm of `exec` that has no meaning yet.  Safe.  No arm raises it in this model. -/
  | notModelled (mnemonic : String)
  deriving DecidableEq, Repr

/-- What one instruction or one step answers. -/
abbrev Outcome := Host.Outcome State Fault Refusal

/-- Reset of a machine of `size` bytes (R41, R260, R261, D12): every register 0, flags false, status AOK, pc 0, step 0,
every byte of memory 0, no step limit. -/
def State.resetWith (size : Nat) : State where
  regs := Vector.replicate 8 0
  flags := { ZF := false, SF := false, OF := false }
  status := .AOK
  pc := Config.entryPoint
  stepCount := 0
  memSize := size
  mem := []
  maxSteps := Config.resetMaxSteps

/-- The machine right after reset, with the MEMSIZE that Config names (DESIGN CHOICE, notes/assumptions/1.md). -/
def State.reset : State := State.resetWith Config.resetMemSize

end Sys2Proof.Machine
end

