-- ==== Sys2Proof/Syntax.lean ====
section
/-! DEFINITION. Syntax: registers, condition codes, ALU operations, the 31 instructions of R89 (one constructor per row
of spec/opcode_table.json), and the two raw layers below them that R83 and R84 describe: the 6-byte fetch window and the
decode temporaries. -/

namespace Sys2Proof

/-- The eight registers of R21, in index order.  The 4-bit values 8 to 0xF name no register (R24), so an operand that
must be a register is a `Reg` and cannot hold them. -/
inductive Reg where
  | eax | ecx | edx | ebx | esi | edi | esp | ebp
  deriving DecidableEq, Repr

/-- The seven condition codes of R130, function codes 0 to 6 of the classes 2 and 7. -/
inductive CondCode where
  | always | le | l | e | ne | ge | g
  deriving DecidableEq, Repr

/-- The four ALU operations, function codes 0 to 3 of the classes 6 and 12 (R87, R160). -/
inductive AluOp where
  | add | sub | and | xor
  deriving DecidableEq, Repr

/-- The 31 instructions of R89.  The register operands stand in the order rA, rB of the register byte; an operand that
R86 requires to be "none" is not written, since 0xF is its only value. -/
inductive Instr where
  | halt
  | nop
  | rrmovl (rA rB : Reg)
  | cmovle (rA rB : Reg)
  | cmovl (rA rB : Reg)
  | cmove (rA rB : Reg)
  | cmovne (rA rB : Reg)
  | cmovge (rA rB : Reg)
  | cmovg (rA rB : Reg)
  | irmovl (rB : Reg) (val : Word)
  | rmmovl (rA rB : Reg) (val : Word)
  | mrmovl (rA rB : Reg) (val : Word)
  | addl (rA rB : Reg)
  | subl (rA rB : Reg)
  | andl (rA rB : Reg)
  | xorl (rA rB : Reg)
  | jmp (dest : Word)
  | jle (dest : Word)
  | jl (dest : Word)
  | je (dest : Word)
  | jne (dest : Word)
  | jge (dest : Word)
  | jg (dest : Word)
  | call (dest : Word)
  | ret
  | pushl (rA : Reg)
  | popl (rA : Reg)
  | iaddl (rB : Reg) (val : Word)
  | isubl (rB : Reg) (val : Word)
  | iandl (rB : Reg) (val : Word)
  | ixorl (rB : Reg) (val : Word)
  deriving DecidableEq, Repr

/-- The fetch window (R83): the six bytes at `pc` to `pc + 5`, whatever the instruction's length. -/
structure Window where
  b0 : Byte
  b1 : Byte
  b2 : Byte
  b3 : Byte
  b4 : Byte
  b5 : Byte
  deriving DecidableEq, Repr

/-- The decode temporaries of R84. -/
structure Fields where
  icls : BitVec 4
  ifun : BitVec 4
  rA : BitVec 4
  rB : BitVec 4
  dest : Word
  val : Word
  deriving DecidableEq, Repr

/-- Why a window is no instruction: the four causes of InvalidInstruction that R90 and R232 quote. -/
inductive Reject where
  /-- "unrecognized instruction class": 13, 14 or 15. -/
  | unknownClass (icls : BitVec 4)
  /-- "unrecognized function code for a class that uses one", or a non-zero one where it must be 0. -/
  | unknownFunction (icls ifun : BitVec 4)
  /-- "a register field holding an out-of-range index where a real register is required". -/
  | registerRequired (icls : BitVec 4)
  /-- "a register field not equal to the 'none' sentinel where absence is required". -/
  | noneRequired (icls : BitVec 4)
  deriving DecidableEq, Repr

end Sys2Proof
end

