-- ==== Sys2Proof/Machine/Flags.lean ====
section
/-! DEFINITION. The ALU with its condition-flag updater (R160 to R164) and the condition predicate Cond (R130). -/

namespace Sys2Proof.Machine

/-- The result of R161 to R164: `b` is the old destination (first operand), `a` the second operand; add and subtract wrap
modulo 2^32 (R174, D5). -/
def aluResult : AluOp → (b a : Word) → Word
  | .add, b, a => b + a
  | .sub, b, a => b - a
  | .and, b, a => b &&& a
  | .xor, b, a => b ^^^ a

/-- The OF formulas of R161 to R164, verbatim: they look at the first operand and the result only (R176). -/
def aluOverflow : AluOp → (b r : Word) → Bool
  | .add, b, r => signBit b && !(signBit r)
  | .sub, b, r => !(signBit b) && signBit r
  | .and, _, _ => false
  | .xor, _, _ => false

/-- The three flags after an arithmetic instruction (R160). -/
def aluFlags (op : AluOp) (b a : Word) : Flags where
  ZF := aluResult op b a == 0
  SF := signBit (aluResult op b a)
  OF := aluOverflow op b (aluResult op b a)

/-- Cond(f) of R130; the formulas are normative, code 5 with its ZF term. -/
def condHolds : CondCode → Flags → Bool
  | .always, _ => true
  | .le, f => f.ZF || (f.SF != f.OF)
  | .l, f => f.SF != f.OF
  | .e, f => f.ZF
  | .ne, f => !f.ZF
  | .ge, f => f.ZF || (f.SF == f.OF)
  | .g, f => !f.ZF && (f.SF == f.OF)

end Sys2Proof.Machine
end

