-- ==== Sys2Proof/Decode.lean ====
section
/-! DEFINITION. Decoding and encoding: the register numbers of R21, the decode temporaries of R84, the decoder (total on
every window, rejecting by name), the opcode table of R89 as data, the encoder of R93, and the reading of one word as
spec/opcode_table.json numbers its bits. -/

namespace Sys2Proof

open Sys2Proof.Machine

/-- R21: the index of each register. -/
def Reg.index : Reg → Fin 8
  | .eax => 0
  | .ecx => 1
  | .edx => 2
  | .ebx => 3
  | .esi => 4
  | .edi => 5
  | .esp => 6
  | .ebp => 7

/-- R21, R24: the register a 4-bit field names; 8 to 0xF name none. -/
def Reg.ofField (f : BitVec 4) : Option Reg :=
  match f.toNat with
  | 0 => some .eax
  | 1 => some .ecx
  | 2 => some .edx
  | 3 => some .ebx
  | 4 => some .esi
  | 5 => some .edi
  | 6 => some .esp
  | 7 => some .ebp
  | _ => none

/-- R84: all fields are read from the window at once, whatever the instruction. -/
def Window.fields (w : Window) : Fields where
  icls := highNibble w.b0
  ifun := lowNibble w.b0
  rA := highNibble w.b1
  rB := lowNibble w.b1
  dest := decodeLE w.b1 w.b2 w.b3 w.b4
  val := decodeLE w.b2 w.b3 w.b4 w.b5

/-- A class whose function code "must be 0" (R87). -/
def onlyFunctionZero (f : Fields) (r : Except Reject Instr) : Except Reject Instr :=
  if f.ifun = 0#4 then r else .error (.unknownFunction f.icls f.ifun)

/-- R86: rA and rB must both be registers. -/
def twoRegisters (f : Fields) (mk : Reg → Reg → Instr) : Except Reject Instr :=
  match Reg.ofField f.rA, Reg.ofField f.rB with
  | some a, some b => .ok (mk a b)
  | _, _ => .error (.registerRequired f.icls)

/-- R86: rA must be none and rB a register (irmovl and class 12). -/
def noneThenRegister (f : Fields) (mk : Reg → Instr) : Except Reject Instr :=
  if f.rA = 0xF#4 then
    match Reg.ofField f.rB with
    | some b => .ok (mk b)
    | none => .error (.registerRequired f.icls)
  else .error (.noneRequired f.icls)

/-- R86: rA must be a register and rB none (pushl and popl). -/
def registerThenNone (f : Fields) (mk : Reg → Instr) : Except Reject Instr :=
  match Reg.ofField f.rA with
  | some a => if f.rB = 0xF#4 then .ok (mk a) else .error (.noneRequired f.icls)
  | none => .error (.registerRequired f.icls)

/-- Class 2: the condition code selects the move (R131). -/
def decodeMove (f : Fields) : Except Reject Instr :=
  match f.ifun.toNat with
  | 0 => twoRegisters f .rrmovl
  | 1 => twoRegisters f .cmovle
  | 2 => twoRegisters f .cmovl
  | 3 => twoRegisters f .cmove
  | 4 => twoRegisters f .cmovne
  | 5 => twoRegisters f .cmovge
  | 6 => twoRegisters f .cmovg
  | _ => .error (.unknownFunction f.icls f.ifun)

/-- Class 6: the function code selects the operation (R165). -/
def decodeAluReg (f : Fields) : Except Reject Instr :=
  match f.ifun.toNat with
  | 0 => twoRegisters f .addl
  | 1 => twoRegisters f .subl
  | 2 => twoRegisters f .andl
  | 3 => twoRegisters f .xorl
  | _ => .error (.unknownFunction f.icls f.ifun)

/-- Class 7: the condition code selects the jump; the register nibbles are not looked at (R191, R85). -/
def decodeJump (f : Fields) : Except Reject Instr :=
  match f.ifun.toNat with
  | 0 => .ok (.jmp f.dest)
  | 1 => .ok (.jle f.dest)
  | 2 => .ok (.jl f.dest)
  | 3 => .ok (.je f.dest)
  | 4 => .ok (.jne f.dest)
  | 5 => .ok (.jge f.dest)
  | 6 => .ok (.jg f.dest)
  | _ => .error (.unknownFunction f.icls f.ifun)

/-- Class 12: the function code selects the operation (R165). -/
def decodeAluImm (f : Fields) : Except Reject Instr :=
  match f.ifun.toNat with
  | 0 => noneThenRegister f (.iaddl · f.val)
  | 1 => noneThenRegister f (.isubl · f.val)
  | 2 => noneThenRegister f (.iandl · f.val)
  | 3 => noneThenRegister f (.ixorl · f.val)
  | _ => .error (.unknownFunction f.icls f.ifun)

/-- Dispatch on the class nibble (R113). -/
def decodeFields (f : Fields) : Except Reject Instr :=
  match f.icls.toNat with
  | 0 => onlyFunctionZero f (.ok .halt)
  | 1 => onlyFunctionZero f (.ok .nop)
  | 2 => decodeMove f
  | 3 => onlyFunctionZero f (noneThenRegister f (.irmovl · f.val))
  | 4 => onlyFunctionZero f (twoRegisters f (.rmmovl · · f.val))
  | 5 => onlyFunctionZero f (twoRegisters f (.mrmovl · · f.val))
  | 6 => decodeAluReg f
  | 7 => decodeJump f
  | 8 => onlyFunctionZero f (.ok (.call f.dest))
  | 9 => onlyFunctionZero f (.ok .ret)
  | 10 => onlyFunctionZero f (registerThenNone f .pushl)
  | 11 => onlyFunctionZero f (registerThenNone f .popl)
  | 12 => decodeAluImm f
  | _ => .error (.unknownClass f.icls)

/-- The instruction a fetch window holds, or why it holds none (R83, R84, R90). -/
def decode (w : Window) : Except Reject Instr := decodeFields w.fields

/-- The window that begins with these bytes, filled with zeros up to six. -/
def Window.ofBytes (bs : List Byte) : Window where
  b0 := bs.getD 0 0
  b1 := bs.getD 1 0
  b2 := bs.getD 2 0
  b3 := bs.getD 3 0
  b4 := bs.getD 4 0
  b5 := bs.getD 5 0

/-- The six bytes of a window in address order. -/
def Window.bytes (w : Window) : List Byte := [w.b0, w.b1, w.b2, w.b3, w.b4, w.b5]

/-! ### The encoder (R80, R81, R93) -/

/-- R80: byte 0 is (class << 4) | function, byte 1 is (rA << 4) | rB. -/
def nibbles (high low : BitVec 4) : Byte := high ++ low

/-- The 4-bit field that names a register (R21). -/
def Reg.field (r : Reg) : BitVec 4 := BitVec.ofNat 4 r.index.val

/-- Format OR with two registers. -/
def encodeOR (opcode : Byte) (a b : Reg) : List Byte := [opcode, nibbles a.field b.field]

/-- Format OD: the opcode byte and the little-endian target, no register byte. -/
def encodeOD (opcode : Byte) (dest : Word) : List Byte := opcode :: encodeLE dest

/-- Format ORV: the opcode byte, the register byte and the little-endian value; 0xF stands for a "none" field. -/
def encodeORV (opcode : Byte) (fA fB : BitVec 4) (val : Word) : List Byte := opcode :: nibbles fA fB :: encodeLE val

/-- The bytes of an instruction in address order (R93, with the opcode bytes of R89). -/
def encode : Instr → List Byte
  | .halt => [0x00#8]
  | .nop => [0x10#8]
  | .rrmovl a b => encodeOR 0x20#8 a b
  | .cmovle a b => encodeOR 0x21#8 a b
  | .cmovl a b => encodeOR 0x22#8 a b
  | .cmove a b => encodeOR 0x23#8 a b
  | .cmovne a b => encodeOR 0x24#8 a b
  | .cmovge a b => encodeOR 0x25#8 a b
  | .cmovg a b => encodeOR 0x26#8 a b
  | .irmovl b v => encodeORV 0x30#8 0xF#4 b.field v
  | .rmmovl a b v => encodeORV 0x40#8 a.field b.field v
  | .mrmovl a b v => encodeORV 0x50#8 a.field b.field v
  | .addl a b => encodeOR 0x60#8 a b
  | .subl a b => encodeOR 0x61#8 a b
  | .andl a b => encodeOR 0x62#8 a b
  | .xorl a b => encodeOR 0x63#8 a b
  | .jmp d => encodeOD 0x70#8 d
  | .jle d => encodeOD 0x71#8 d
  | .jl d => encodeOD 0x72#8 d
  | .je d => encodeOD 0x73#8 d
  | .jne d => encodeOD 0x74#8 d
  | .jge d => encodeOD 0x75#8 d
  | .jg d => encodeOD 0x76#8 d
  | .call d => encodeOD 0x80#8 d
  | .ret => [0x90#8]
  | .pushl a => [0xA0#8, nibbles a.field 0xF#4]
  | .popl a => [0xB0#8, nibbles a.field 0xF#4]
  | .iaddl b v => encodeORV 0xC0#8 0xF#4 b.field v
  | .isubl b v => encodeORV 0xC1#8 0xF#4 b.field v
  | .iandl b v => encodeORV 0xC2#8 0xF#4 b.field v
  | .ixorl b v => encodeORV 0xC3#8 0xF#4 b.field v

/-- The mnemonic of each instruction, as R89 and spec/opcode_table.json spell it. -/
def Instr.mnemonic : Instr → String
  | .halt => "halt"
  | .nop => "nop"
  | .rrmovl _ _ => "rrmovl"
  | .cmovle _ _ => "cmovle"
  | .cmovl _ _ => "cmovl"
  | .cmove _ _ => "cmove"
  | .cmovne _ _ => "cmovne"
  | .cmovge _ _ => "cmovge"
  | .cmovg _ _ => "cmovg"
  | .irmovl _ _ => "irmovl"
  | .rmmovl _ _ _ => "rmmovl"
  | .mrmovl _ _ _ => "mrmovl"
  | .addl _ _ => "addl"
  | .subl _ _ => "subl"
  | .andl _ _ => "andl"
  | .xorl _ _ => "xorl"
  | .jmp _ => "jmp"
  | .jle _ => "jle"
  | .jl _ => "jl"
  | .je _ => "je"
  | .jne _ => "jne"
  | .jge _ => "jge"
  | .jg _ => "jg"
  | .call _ => "call"
  | .ret => "ret"
  | .pushl _ => "pushl"
  | .popl _ => "popl"
  | .iaddl _ _ => "iaddl"
  | .isubl _ _ => "isubl"
  | .iandl _ _ => "iandl"
  | .ixorl _ _ => "ixorl"

/-! ### The opcode table as data (R89) -/

/-- One row of R89's table: `mask` and `pattern` are over W = 256 * b0 + b1. -/
structure OpcodeRow where
  mnemonic : String
  pattern : BitVec 16
  mask : BitVec 16
  length : Nat
  deriving DecidableEq, Repr

/-- R89: "the row is selected exactly when (W & mask) = match". -/
def OpcodeRow.selects (row : OpcodeRow) (w : Window) : Bool :=
  ((w.b0 ++ w.b1 : BitVec 16) &&& row.mask) == row.pattern

/-- The rows of the classes 0 to 5. -/
def opcodeRowsMoves : List OpcodeRow :=
  [⟨"halt", 0x0000, 0xFF00, 1⟩, ⟨"nop", 0x1000, 0xFF00, 1⟩, ⟨"rrmovl", 0x2000, 0xFF88, 2⟩, ⟨"cmovle", 0x2100, 0xFF88, 2⟩,
   ⟨"cmovl", 0x2200, 0xFF88, 2⟩, ⟨"cmove", 0x2300, 0xFF88, 2⟩, ⟨"cmovne", 0x2400, 0xFF88, 2⟩, ⟨"cmovge", 0x2500, 0xFF88, 2⟩,
   ⟨"cmovg", 0x2600, 0xFF88, 2⟩, ⟨"irmovl", 0x30F0, 0xFFF8, 6⟩, ⟨"rmmovl", 0x4000, 0xFF88, 6⟩, ⟨"mrmovl", 0x5000, 0xFF88, 6⟩]

/-- The rows of the classes 6 and 12. -/
def opcodeRowsAlu : List OpcodeRow :=
  [⟨"addl", 0x6000, 0xFF88, 2⟩, ⟨"subl", 0x6100, 0xFF88, 2⟩, ⟨"andl", 0x6200, 0xFF88, 2⟩, ⟨"xorl", 0x6300, 0xFF88, 2⟩,
   ⟨"iaddl", 0xC0F0, 0xFFF8, 6⟩, ⟨"isubl", 0xC1F0, 0xFFF8, 6⟩, ⟨"iandl", 0xC2F0, 0xFFF8, 6⟩, ⟨"ixorl", 0xC3F0, 0xFFF8, 6⟩]

/-- The rows of the classes 7 to 11. -/
def opcodeRowsControl : List OpcodeRow :=
  [⟨"jmp", 0x7000, 0xFF00, 5⟩, ⟨"jle", 0x7100, 0xFF00, 5⟩, ⟨"jl", 0x7200, 0xFF00, 5⟩, ⟨"je", 0x7300, 0xFF00, 5⟩,
   ⟨"jne", 0x7400, 0xFF00, 5⟩, ⟨"jge", 0x7500, 0xFF00, 5⟩, ⟨"jg", 0x7600, 0xFF00, 5⟩, ⟨"call", 0x8000, 0xFF00, 5⟩,
   ⟨"ret", 0x9000, 0xFF00, 1⟩, ⟨"pushl", 0xA00F, 0xFF8F, 2⟩, ⟨"popl", 0xB00F, 0xFF8F, 2⟩]

/-- The complete instruction list of R89: 31 rows. -/
def opcodeTable : List OpcodeRow := opcodeRowsMoves ++ opcodeRowsAlu ++ opcodeRowsControl

/-! ### One word of spec/opcode_table.json

The table numbers a row over W = 256 * b0 + b1 (its "match_over"): a 16-bit word that memory holds with its high byte
first, so bits 15:8 are byte 0 and bits 7:0 byte 1; a later word's bits would count on from bit 16.  DEDUCED from the
table, safe (notes/assumptions/8.md).  A number of one byte only (nbits up to 8) is the opcode byte alone. -/

/-- The window whose bits are `w` as the table numbers them, zeros above `nbits`. -/
def windowOfTableWord (nbits w : Nat) : Window :=
  if nbits ≤ 8 then Window.ofBytes [BitVec.ofNat 8 w]
  else
    Window.ofBytes
      [BitVec.ofNat 8 (w / 2 ^ 8), BitVec.ofNat 8 w, BitVec.ofNat 8 (w / 2 ^ 24), BitVec.ofNat 8 (w / 2 ^ 16),
       BitVec.ofNat 8 (w / 2 ^ 40), BitVec.ofNat 8 (w / 2 ^ 32)]

/-- The instruction the decoder reads from a table word, `none` where it refuses. -/
def decodeTableWord (nbits w : Nat) : Option Instr := (decode (windowOfTableWord nbits w)).toOption

end Sys2Proof
end

