-- ==== Sys2Proof/Machine/Operands.lean ====
section
/-! DEFINITION. Operand forms and address checks: the four bounds predicates of R56 to R59, register operands, and the
effective address of R61. -/

namespace Sys2Proof.Machine

/-- R56, the fetch bound: `0 <= a` and `a <= MEMSIZE - 6`, over the integers. -/
def fetchOK (memSize : Nat) (a : Int) : Bool := decide (0 ≤ a ∧ a ≤ (memSize : Int) - 6)

/-- R57, the bound of a load or store: `0 <= a` and `a <= MEMSIZE - 4`. -/
def wordOK (memSize : Nat) (a : Int) : Bool := decide (0 ≤ a ∧ a ≤ (memSize : Int) - 4)

/-- R58, the bound of a push on the stack pointer before it: `4 <= e` and `e < MEMSIZE`. -/
def pushOK (memSize : Nat) (e : Int) : Bool := decide (4 ≤ e ∧ e < (memSize : Int))

/-- R59, the bound of a pop on the stack pointer before it: `0 <= e` and `e < MEMSIZE - 4` (90_conflicts.md C2). -/
def popOK (memSize : Nat) (e : Int) : Bool := decide (0 ≤ e ∧ e < (memSize : Int) - 4)

/-- x[i] (R13). -/
def State.reg (s : State) (r : Reg) : Word := s.regs[r.index]

/-- x[i] <- v (R13); no register is hard-wired (R22). -/
def State.setReg (s : State) (r : Reg) (v : Word) : State := { s with regs := s.regs.set r.index v }

/-- R61: base register plus displacement, a 32-bit sum that wraps (D6); `toInt` of it is the spec's EA. -/
def effectiveAddress (s : State) (base : Reg) (disp : Word) : Word := s.reg base + disp

end Sys2Proof.Machine
end

