-- ==== Sys2Proof/Machine/Ops.lean ====
section
/-! DEFINITION. The named operations over memory, status and program counter: reading and writing memory (R14), raising a
terminal status (R15, R235) and the run entry that alone clears it (R110, R237), the pc update (R115), the checked jump
(R190), the stack primitives (R210, R211) and the fetch of the six-byte window (R83). -/

namespace Sys2Proof.Machine

/-! ### Memory: a list of cells in one canonical form -/

/-- What an address that is not listed reads as: memory after reset is all zero (R261). -/
def Memory.unlisted : Byte := 0

/-- mem[a] (R13): the byte at one address. -/
def Memory.read : List Host.Cell → Nat → Byte
  | [], _ => Memory.unlisted
  | (k, v) :: m, a => if k = a then v else Memory.read m a

/-- Put a cell before `m`, or leave it out when it holds what an unlisted address reads as. -/
def Memory.cons (a : Nat) (v : Byte) (m : List Host.Cell) : List Host.Cell :=
  if v = Memory.unlisted then m else (a, v) :: m

/-- mem[a] <- v, keeping the canonical form. -/
def Memory.write : List Host.Cell → Nat → Byte → List Host.Cell
  | [], a, v => Memory.cons a v []
  | (k, w) :: m, a, v =>
    if a < k then Memory.cons a v ((k, w) :: m)
    else if a = k then Memory.cons a v m
    else (k, w) :: Memory.write m a v

/-- MemWrite(a, 4, v) of R14: little-endian, four bytes. -/
def Memory.writeWord (m : List Host.Cell) (a : Nat) (v : Word) : List Host.Cell :=
  Memory.write (Memory.write (Memory.write (Memory.write m a (byteOf v 0)) (a + 1) (byteOf v 1)) (a + 2) (byteOf v 2))
    (a + 3) (byteOf v 3)

/-- MemRead(a, 4) of R14: little-endian, four bytes. -/
def Memory.readWord (m : List Host.Cell) (a : Nat) : Word :=
  decodeLE (Memory.read m a) (Memory.read m (a + 1)) (Memory.read m (a + 2)) (Memory.read m (a + 3))

/-- The canonical form: addresses strictly rising, no cell equal to what an unlisted address reads as. -/
def Memory.wf : List Host.Cell → Bool
  | [] => true
  | (k, v) :: m => (v != Memory.unlisted) && m.all (fun c => decide (k < c.1)) && Memory.wf m

/-- Every listed address is below `n` (R39: the addresses are 0 to MEMSIZE - 1). -/
def Memory.below (n : Nat) (m : List Host.Cell) : Bool := m.all (fun c => decide (c.1 < n))

/-- MemRead(a, 1). -/
def State.byte (s : State) (a : Nat) : Byte := Memory.read s.mem a

/-- MemRead(a, 4). -/
def State.word (s : State) (a : Nat) : Word := Memory.readWord s.mem a

/-- MemWrite(a, 4, v). -/
def State.setWord (s : State) (a : Nat) (v : Word) : State := { s with mem := Memory.writeWord s.mem a v }

/-! ### Raising a terminal status, and the only way back -/

/-- R15, R235: `raise HLT`, `raise ADR`, `raise INS`.  The status takes the value and nothing else is written: no saved
pc, no cause, no handler. -/
def raise (st : Status) (s : State) : Outcome := .next { s with status := st }

/-- R110, R237: the run entry, the only thing beside reset that clears a terminal status.  It starts again at address 0
with `step` 0 and keeps registers, flags and memory; `limit` is the optional MAX_STEPS of the run caller (R9, R119). -/
def runEntry (limit : Option Nat) (s : State) : State :=
  { s with status := .AOK, pc := Config.entryPoint, stepCount := 0, maxSteps := limit }

/-! ### The program counter -/

/-- R115: an instruction that does not jump adds its step size. -/
def advance (n : Nat) (s : State) : State := { s with pc := s.pc + BitVec.ofNat 32 n }

/-- R190: a control transfer checks its target as a fetch address before pc changes. -/
def jumpTo (t : Word) (s : State) : Outcome :=
  if fetchOK s.memSize t.toInt then .next { s with pc := t } else raise .ADR s

/-! ### The stack primitives -/

/-- R210: `push(v)`, or `none` when the stack pointer fails PushOK and nothing is written. -/
def push (v : Word) (s : State) : Option State :=
  if pushOK s.memSize (s.reg .esp).toInt then
    some ((s.setReg .esp (s.reg .esp - 4)).setWord (s.reg .esp - 4).toNat v)
  else none

/-- R211: `pop()`, the word and the state with the stack pointer moved, or `none` when the stack pointer fails PopOK. -/
def pop (s : State) : Option (Word × State) :=
  if popOK s.memSize (s.reg .esp).toInt then
    some (s.word (s.reg .esp).toNat, s.setReg .esp (s.reg .esp + 4))
  else none

/-! ### The start of an iteration -/

/-- R111 step 2. -/
def countStep (s : State) : State := { s with stepCount := s.stepCount + 1 }

/-- R111 step 1: the fetch-bounds check on pc. -/
def State.canFetch (s : State) : Bool := fetchOK s.memSize s.pc.toInt

/-- R119: the optional budget is used up ("the loop condition becomes status = AOK and step < L"). -/
def State.limitReached (s : State) : Bool :=
  match s.maxSteps with
  | none => false
  | some limit => decide (limit ≤ s.stepCount)

/-- The six bytes from an address on. -/
def windowAt (s : State) (a : Nat) : Window where
  b0 := s.byte a
  b1 := s.byte (a + 1)
  b2 := s.byte (a + 2)
  b3 := s.byte (a + 3)
  b4 := s.byte (a + 4)
  b5 := s.byte (a + 5)

/-- R83: the fixed window the iteration reads at pc. -/
def fetchWindow (s : State) : Window := windowAt s s.pc.toNat

/-- Write bytes one after another from an address on. -/
def Memory.writeBytes : List Host.Cell → Nat → List Byte → List Host.Cell
  | m, _, [] => m
  | m, a, b :: bs => Memory.writeBytes (Memory.write m a b) (a + 1) bs

end Sys2Proof.Machine
end

