-- ==== Sys2Proof/Machine/Alu.lean ====
section
/-! DEFINITION. Classes 6 and 12: the eight arithmetic instructions (R165 to R173). -/

namespace Sys2Proof.Machine

/-- R165: x[rB] <- result, ZF SF OF <- flags, from the old destination and the second operand. -/
def alu (op : AluOp) (a : Word) (rB : Reg) (s : State) : State :=
  { s.setReg rB (aluResult op (s.reg rB) a) with flags := aluFlags op (s.reg rB) a }

/-- Class 6: the second operand is x[rA]; length 2. -/
def aluReg (op : AluOp) (rA rB : Reg) (s : State) : Outcome := .next (advance 2 (alu op (s.reg rA) rB s))

/-- Class 12: the second operand is val; length 6. -/
def aluImm (op : AluOp) (rB : Reg) (val : Word) (s : State) : Outcome := .next (advance 6 (alu op val rB s))

/-- R166. -/
def execAddl (rA rB : Reg) (s : State) : Outcome := aluReg .add rA rB s

/-- R167. -/
def execSubl (rA rB : Reg) (s : State) : Outcome := aluReg .sub rA rB s

/-- R168. -/
def execAndl (rA rB : Reg) (s : State) : Outcome := aluReg .and rA rB s

/-- R169. -/
def execXorl (rA rB : Reg) (s : State) : Outcome := aluReg .xor rA rB s

/-- R170. -/
def execIaddl (rB : Reg) (val : Word) (s : State) : Outcome := aluImm .add rB val s

/-- R171. -/
def execIsubl (rB : Reg) (val : Word) (s : State) : Outcome := aluImm .sub rB val s

/-- R172. -/
def execIandl (rB : Reg) (val : Word) (s : State) : Outcome := aluImm .and rB val s

/-- R173. -/
def execIxorl (rB : Reg) (val : Word) (s : State) : Outcome := aluImm .xor rB val s

end Sys2Proof.Machine
end

