-- ==== Sys2Proof/Machine/Control.lean ====
section
/-! DEFINITION. Classes 7, 8 and 9: jumps, call and return (R190 to R200). -/

namespace Sys2Proof.Machine

/-- R191: a taken jump goes to its checked target, an untaken one adds 5 and looks at no target (D8). -/
def jumpIf (c : CondCode) (dest : Word) (s : State) : Outcome :=
  if condHolds c s.flags then jumpTo dest s else .next (advance 5 s)

/-- R192. -/
def execJmp (dest : Word) (s : State) : Outcome := jumpIf .always dest s

/-- R193. -/
def execJle (dest : Word) (s : State) : Outcome := jumpIf .le dest s

/-- R194. -/
def execJl (dest : Word) (s : State) : Outcome := jumpIf .l dest s

/-- R195. -/
def execJe (dest : Word) (s : State) : Outcome := jumpIf .e dest s

/-- R196. -/
def execJne (dest : Word) (s : State) : Outcome := jumpIf .ne dest s

/-- R197. -/
def execJge (dest : Word) (s : State) : Outcome := jumpIf .ge dest s

/-- R198. -/
def execJg (dest : Word) (s : State) : Outcome := jumpIf .g dest s

/-- R199: push the return address pc + 5 and go to dest; both checks precede both writes (D9), either failing is ADR. -/
def execCall (dest : Word) (s : State) : Outcome :=
  if fetchOK s.memSize dest.toInt then
    match push (s.pc + 5) s with
    | some t => .next { t with pc := dest }
    | none => raise .ADR s
  else raise .ADR s

/-- R200: pop the return address; esp moves only after the popped target has passed its check (90_conflicts.md C3). -/
def execRet (s : State) : Outcome :=
  match pop s with
  | some (target, t) => if fetchOK s.memSize target.toInt then .next { t with pc := target } else raise .ADR s
  | none => raise .ADR s

end Sys2Proof.Machine
end

