-- ==== Sys2Proof/Machine/Engine.lean ====
section
/-! DEFINITION. Classes 0 and 1: halt and nop (R120, R121). -/

namespace Sys2Proof.Machine

/-- R120: status HLT, pc unchanged, nothing else written. -/
def execHalt (s : State) : Outcome := raise .HLT s

/-- R121: pc + 1, no other effect. -/
def execNop (s : State) : Outcome := .next (advance 1 s)

end Sys2Proof.Machine
end

