-- ==== Sys2Proof/Machine/MemoryMoves.lean ====
section
/-! DEFINITION. Classes 4 and 5: store and load (R150 to R152). -/

namespace Sys2Proof.Machine

/-- R151: store x[rA] at x[rB] + val, or ADR with memory unchanged. -/
def execRmmovl (rA rB : Reg) (val : Word) (s : State) : Outcome :=
  if wordOK s.memSize (effectiveAddress s rB val).toInt then
    .next (advance 6 (s.setWord (effectiveAddress s rB val).toNat (s.reg rA)))
  else raise .ADR s

/-- R152: load x[rA] (the high nibble is the destination) from x[rB] + val, or ADR with x[rA] unchanged. -/
def execMrmovl (rA rB : Reg) (val : Word) (s : State) : Outcome :=
  if wordOK s.memSize (effectiveAddress s rB val).toInt then
    .next (advance 6 (s.setReg rA (s.word (effectiveAddress s rB val).toNat)))
  else raise .ADR s

end Sys2Proof.Machine
end

