-- ==== Sys2Proof/Machine/Moves.lean ====
section
/-! DEFINITION. Classes 2 and 3: register moves and the immediate move (R131 to R139). -/

namespace Sys2Proof.Machine

/-- R131: if Cond holds, x[rB] <- x[rA]; in any case pc + 2. -/
def moveIf (c : CondCode) (rA rB : Reg) (s : State) : Outcome :=
  .next (advance 2 (if condHolds c s.flags then s.setReg rB (s.reg rA) else s))

/-- R132. -/
def execRrmovl (rA rB : Reg) (s : State) : Outcome := moveIf .always rA rB s

/-- R133. -/
def execCmovle (rA rB : Reg) (s : State) : Outcome := moveIf .le rA rB s

/-- R134. -/
def execCmovl (rA rB : Reg) (s : State) : Outcome := moveIf .l rA rB s

/-- R135. -/
def execCmove (rA rB : Reg) (s : State) : Outcome := moveIf .e rA rB s

/-- R136. -/
def execCmovne (rA rB : Reg) (s : State) : Outcome := moveIf .ne rA rB s

/-- R137. -/
def execCmovge (rA rB : Reg) (s : State) : Outcome := moveIf .ge rA rB s

/-- R138. -/
def execCmovg (rA rB : Reg) (s : State) : Outcome := moveIf .g rA rB s

/-- R139: x[rB] <- val; pc + 6. -/
def execIrmovl (rB : Reg) (val : Word) (s : State) : Outcome := .next (advance 6 (s.setReg rB val))

end Sys2Proof.Machine
end

