-- ==== Sys2Proof/Machine/Stack.lean ====
section
/-! DEFINITION. Classes 10 and 11: pushl and popl (R212, R213). -/

namespace Sys2Proof.Machine

/-- R212: the value pushed is x[rA] before esp changes, also when rA is esp (D10). -/
def execPushl (rA : Reg) (s : State) : Outcome :=
  match push (s.reg rA) s with
  | some t => .next (advance 2 t)
  | none => raise .ADR s

/-- R213: x[rA] <- the popped word after esp has moved, so popl %esp leaves the loaded word in esp (D10). -/
def execPopl (rA : Reg) (s : State) : Outcome :=
  match pop s with
  | some (v, t) => .next (advance 2 (t.setReg rA v))
  | none => raise .ADR s

end Sys2Proof.Machine
end

