-- ==== Sys2Proof/Machine/Dispatch.lean ====
section
/-! DEFINITION. One arm per instruction (R113): each arm is one direct call of that instruction's meaning. -/

namespace Sys2Proof.Machine

def exec (i : Instr) (s : State) : Host.Outcome State Fault Refusal :=
  match i with
  | .halt => Sys2Proof.Machine.execHalt s
  | .nop => Sys2Proof.Machine.execNop s
  | .rrmovl rA rB => Sys2Proof.Machine.execRrmovl rA rB s
  | .cmovle rA rB => Sys2Proof.Machine.execCmovle rA rB s
  | .cmovl rA rB => Sys2Proof.Machine.execCmovl rA rB s
  | .cmove rA rB => Sys2Proof.Machine.execCmove rA rB s
  | .cmovne rA rB => Sys2Proof.Machine.execCmovne rA rB s
  | .cmovge rA rB => Sys2Proof.Machine.execCmovge rA rB s
  | .cmovg rA rB => Sys2Proof.Machine.execCmovg rA rB s
  | .irmovl rB val => Sys2Proof.Machine.execIrmovl rB val s
  | .rmmovl rA rB val => Sys2Proof.Machine.execRmmovl rA rB val s
  | .mrmovl rA rB val => Sys2Proof.Machine.execMrmovl rA rB val s
  | .addl rA rB => Sys2Proof.Machine.execAddl rA rB s
  | .subl rA rB => Sys2Proof.Machine.execSubl rA rB s
  | .andl rA rB => Sys2Proof.Machine.execAndl rA rB s
  | .xorl rA rB => Sys2Proof.Machine.execXorl rA rB s
  | .jmp dest => Sys2Proof.Machine.execJmp dest s
  | .jle dest => Sys2Proof.Machine.execJle dest s
  | .jl dest => Sys2Proof.Machine.execJl dest s
  | .je dest => Sys2Proof.Machine.execJe dest s
  | .jne dest => Sys2Proof.Machine.execJne dest s
  | .jge dest => Sys2Proof.Machine.execJge dest s
  | .jg dest => Sys2Proof.Machine.execJg dest s
  | .call dest => Sys2Proof.Machine.execCall dest s
  | .ret => Sys2Proof.Machine.execRet s
  | .pushl rA => Sys2Proof.Machine.execPushl rA s
  | .popl rA => Sys2Proof.Machine.execPopl rA s
  | .iaddl rB val => Sys2Proof.Machine.execIaddl rB val s
  | .isubl rB val => Sys2Proof.Machine.execIsubl rB val s
  | .iandl rB val => Sys2Proof.Machine.execIandl rB val s
  | .ixorl rB val => Sys2Proof.Machine.execIxorl rB val s

end Sys2Proof.Machine
end

