-- ==== Sys2Proof/Machine/Step.lean ====
section
/-! DEFINITION. One step of the machine: one loop iteration of R111 under the loop condition of R112 and R119; and the
placing of one instruction where the next step fetches. -/

namespace Sys2Proof.Machine

/-- Why a machine whose status is terminal makes no step (R118); `none` for AOK. -/
def Status.stopFault : Status → Option Fault
  | .AOK => none
  | .HLT => some .halted
  | .ADR => some .addressError
  | .INS => some .invalidInstruction

/-- R111 steps 1 to 5, for a state whose status is AOK. -/
def iteration (s : State) : Outcome :=
  if s.canFetch then
    match Sys2Proof.decode (fetchWindow s) with
    | .ok i => exec i (countStep s)
    | .error _ => raise .INS (countStep s)
  else raise .ADR s

/-- One step: nothing once the status is terminal (R118), "step limit exceeded" when an optional budget is used up
(R119), else one iteration (R111). -/
def step (s : State) : Host.Outcome State Fault Refusal :=
  match s.status.stopFault with
  | some f => .fault f
  | none => if s.limitReached then .fault .stepLimitExceeded else iteration s

/-- `s` with a table word stored where its next step fetches: the six bytes at pc.  A machine that cannot fetch at its
pc (stopped, out of budget, or pc outside the fetch bound) is given a new run entry first, the only way to execute
again (R118), and the word goes to address 0; a memory of less than 6 bytes can fetch nothing and is left alone. -/
def State.withFetchWord (s : State) (nbits w : Nat) : State :=
  let t := if s.status.stopFault.isNone && !s.limitReached && s.canFetch then s else runEntry none s
  if t.canFetch then { t with mem := Memory.writeBytes t.mem t.pc.toNat (Sys2Proof.windowOfTableWord nbits w).bytes }
  else t

end Sys2Proof.Machine
end

