-- ==== Sys2Proof/Machine/HostInterface.lean ====
section
/-! DEFINITION. What the outside may do before and after a run (R10, R275): reset, the loader (R69), and the reader's
accessors (R44).  The run caller's move is `runEntry` in Sys2Proof/Machine/Ops.lean.  Nothing here acts during a run. -/

namespace Sys2Proof.Machine

/-- Reset of a machine that exists: its memory keeps its size and nothing else (R260, R261). -/
def hardReset (s : State) : State := State.resetWith s.memSize

/-- R69: the loader writes a finished byte buffer into memory before a run; a buffer that does not fit cannot be
loaded, and `none` says so. -/
def load (a : Nat) (bytes : List Byte) (s : State) : Option State :=
  if a + bytes.length ≤ s.memSize then some { s with mem := Memory.writeBytes s.mem a bytes } else none

/-- R21, R44: the register of a canonical name; the by-name view is the by-index view (R25). -/
def regOfName (name : String) : Option Reg :=
  if name = "eax" then some .eax
  else if name = "ecx" then some .ecx
  else if name = "edx" then some .edx
  else if name = "ebx" then some .ebx
  else if name = "esi" then some .esi
  else if name = "edi" then some .edi
  else if name = "esp" then some .esp
  else if name = "ebp" then some .ebp
  else none

/-- R44: a register by index 0 to 7. -/
def readIndex (s : State) (i : Fin 8) : Word := s.regs[i]

/-- R44: a register by name. -/
def readName (s : State) (name : String) : Option Word := (regOfName name).map s.reg

/-- R44: a raw memory byte; an address outside 0 to MEMSIZE - 1 names nothing (R50). -/
def readByte (s : State) (a : Nat) : Option Byte := if a < s.memSize then some (s.byte a) else none

/-- R33, R44: the stable string form of the status. -/
def Status.text : Status → String
  | .AOK => "AOK"
  | .HLT => "HLT"
  | .ADR => "ADR"
  | .INS => "INS"

/-- R35, D11: the status on a 2-bit bus, where a port needs bits. -/
def Status.bits : Status → BitVec 2
  | .AOK => 0
  | .HLT => 1
  | .ADR => 2
  | .INS => 3

end Sys2Proof.Machine
end

