-- ==== Sys2Proof/Safety.lean ====
section
/-! DEFINITION. The terms claims are stated in: when an iteration executes an instruction, the invariant of the machine,
what a run is, the frames, and the spec's own lists of who uses which register and who can end in ADR. -/

namespace Sys2Proof.Machine

/-- The next iteration fetches and executes: status AOK, budget left, pc fetchable (R111, R119). -/
def Ready (s : State) : Prop := s.status = .AOK ∧ s.limitReached = false ∧ s.canFetch = true

/-- The invariant: MEMSIZE legal (R8), pc between 0 and MEMSIZE (R27, R29), memory in its canonical form with every
listed address inside it (R39, R50), and the step counter within the budget of the run (R119). -/
structure StateInv (s : State) : Prop where
  legal : Config.LegalMemSize s.memSize
  pcInside : 0 ≤ s.pc.toInt ∧ s.pc.toInt ≤ (s.memSize : Int)
  memCanonical : Memory.wf s.mem = true
  memInside : Memory.below s.memSize s.mem = true
  budget : ∀ limit, s.maxSteps = some limit → s.stepCount ≤ limit

/-- Any number of iterations (R112). -/
inductive Reaches (s : State) : State → Prop where
  | refl : Reaches s s
  | tail {t u : State} : Reaches s t → step t = .next u → Reaches s u

/-- R112: "The run ends at the first moment `status` is not AOK". -/
def RunEnds (s t : State) : Prop := Reaches s t ∧ t.status ≠ .AOK

/-! ### Frames -/

/-- Every register outside the list holds what it held. -/
def KeepsRegsExcept (rs : List Reg) (s t : State) : Prop := ∀ r, r ∉ rs → t.reg r = s.reg r

/-- All three flags hold what they held. -/
def KeepsFlags (s t : State) : Prop := t.flags = s.flags

/-- Every byte of memory reads as before. -/
def KeepsMemory (s t : State) : Prop := ∀ a, t.byte a = s.byte a

/-- Every byte outside the four from `a` on reads as before. -/
def KeepsMemoryOutside (a : Nat) (s t : State) : Prop := ∀ b, b < a ∨ a + 4 ≤ b → t.byte b = s.byte b

/-- The four bytes from `a` on hold `v`, least significant byte first (R14, R52). -/
def HoldsWord (a : Nat) (v : Word) (t : State) : Prop :=
  ∀ k, k < 4 → (t.byte (a + k)).toNat = v.toNat / 256 ^ k % 256

/-- Every fetch window that covers one of the four bytes from `a` on shows that byte of `v` there (R53, R68). -/
def WindowsShow (a : Nat) (v : Word) (t : State) : Prop :=
  ∀ p k j, k < 6 → j < 4 → p + k = a + j →
    ∃ x, (windowAt t p).bytes[k]? = some x ∧ x.toNat = v.toNat / 256 ^ j % 256

/-- Status, step counter and the two parameters hold what they held. -/
def KeepsEngine (s t : State) : Prop :=
  t.status = s.status ∧ t.stepCount = s.stepCount ∧ t.memSize = s.memSize ∧ t.maxSteps = s.maxSteps

/-! ### The spec's lists -/

/-- R23: every register the instruction reads or writes, the stack pointer of the stack instructions included. -/
def uses : Instr → List Reg
  | .halt | .nop => []
  | .rrmovl a b | .cmovle a b | .cmovl a b | .cmove a b | .cmovne a b | .cmovge a b | .cmovg a b => [a, b]
  | .irmovl b _ => [b]
  | .rmmovl a b _ | .mrmovl a b _ => [a, b]
  | .addl a b | .subl a b | .andl a b | .xorl a b => [a, b]
  | .jmp _ | .jle _ | .jl _ | .je _ | .jne _ | .jge _ | .jg _ => []
  | .call _ | .ret => [.esp]
  | .pushl a | .popl a => [a, .esp]
  | .iaddl b _ | .isubl b _ | .iandl b _ | .ixorl b _ => [b]

/-- R31: the writers of the flags. -/
def writesFlags : Instr → Bool
  | .addl _ _ | .subl _ _ | .andl _ _ | .xorl _ _ | .iaddl _ _ | .isubl _ _ | .iandl _ _ | .ixorl _ _ => true
  | .halt | .nop | .rrmovl _ _ | .cmovle _ _ | .cmovl _ _ | .cmove _ _ | .cmovne _ _ | .cmovge _ _ | .cmovg _ _
  | .irmovl _ _ | .rmmovl _ _ _ | .mrmovl _ _ _ | .jmp _ | .jle _ | .jl _ | .je _ | .jne _ | .jge _ | .jg _
  | .call _ | .ret | .pushl _ | .popl _ => false

/-- R32: the readers of the flags. -/
def readsFlags : Instr → Bool
  | .cmovle _ _ | .cmovl _ _ | .cmove _ _ | .cmovne _ _ | .cmovge _ _ | .cmovg _ _
  | .jle _ | .jl _ | .je _ | .jne _ | .jge _ | .jg _ => true
  | .halt | .nop | .rrmovl _ _ | .irmovl _ _ | .rmmovl _ _ _ | .mrmovl _ _ _ | .addl _ _ | .subl _ _ | .andl _ _
  | .xorl _ _ | .jmp _ | .call _ | .ret | .pushl _ | .popl _ | .iaddl _ _ | .isubl _ _ | .iandl _ _ | .ixorl _ _ => false

/-- R51: the address an instruction stores its word to, where it is a storing one. -/
def storeAddress (s : State) : Instr → Option Nat
  | .rmmovl _ b v => some (effectiveAddress s b v).toNat
  | .pushl _ | .call _ => some (s.reg .esp - 4).toNat
  | .halt | .nop | .rrmovl _ _ | .cmovle _ _ | .cmovl _ _ | .cmove _ _ | .cmovne _ _ | .cmovge _ _ | .cmovg _ _
  | .irmovl _ _ | .mrmovl _ _ _ | .addl _ _ | .subl _ _ | .andl _ _ | .xorl _ _ | .jmp _ | .jle _ | .jl _ | .je _
  | .jne _ | .jge _ | .jg _ | .ret | .popl _ | .iaddl _ _ | .isubl _ _ | .iandl _ _ | .ixorl _ _ => none

/-- R190: a target that is no fetch address. -/
def BadTarget (s : State) (t : Word) : Prop := t.toInt < 0 ∨ (s.memSize : Int) - 6 < t.toInt

/-- R57: an effective address that holds no whole word of memory. -/
def BadWord (s : State) (a : Word) : Prop := a.toInt < 0 ∨ (s.memSize : Int) - 4 < a.toInt

/-- R58: a stack pointer that cannot be pushed from. -/
def BadPush (s : State) : Prop := (s.reg .esp).toInt < 4 ∨ (s.memSize : Int) ≤ (s.reg .esp).toInt

/-- R59: a stack pointer that cannot be popped from. -/
def BadPop (s : State) : Prop := (s.reg .esp).toInt < 0 ∨ (s.memSize : Int) - 4 ≤ (s.reg .esp).toInt

/-- R231's list: the condition under which each instruction ends in ADR, with the conditions of R130 written out for
the jumps. -/
def AddressCause (s : State) : Instr → Prop
  | .rmmovl _ b v | .mrmovl _ b v => BadWord s (effectiveAddress s b v)
  | .pushl _ => BadPush s
  | .popl _ => BadPop s
  | .jmp d => BadTarget s d
  | .jle d => (s.flags.ZF = true ∨ s.flags.SF ≠ s.flags.OF) ∧ BadTarget s d
  | .jl d => s.flags.SF ≠ s.flags.OF ∧ BadTarget s d
  | .je d => s.flags.ZF = true ∧ BadTarget s d
  | .jne d => s.flags.ZF = false ∧ BadTarget s d
  | .jge d => (s.flags.ZF = true ∨ s.flags.SF = s.flags.OF) ∧ BadTarget s d
  | .jg d => (s.flags.ZF = false ∧ s.flags.SF = s.flags.OF) ∧ BadTarget s d
  | .call d => BadTarget s d ∨ BadPush s
  | .ret => BadPop s ∨ BadTarget s (s.word (s.reg .esp).toNat)
  | .halt | .nop | .rrmovl _ _ | .cmovle _ _ | .cmovl _ _ | .cmove _ _ | .cmovne _ _ | .cmovge _ _ | .cmovg _ _
  | .irmovl _ _ | .addl _ _ | .subl _ _ | .andl _ _ | .xorl _ _ | .iaddl _ _ | .isubl _ _ | .iandl _ _
  | .ixorl _ _ => False

/-- R90's table over the opcode byte and the register byte, as numbers: class, function code, rA and rB. -/
def IllegalEncoding (b0 b1 : Byte) : Prop :=
  let icls := b0.toNat / 16
  let ifun := b0.toNat % 16
  let rA := b1.toNat / 16
  let rB := b1.toNat % 16
  13 ≤ icls
    ∨ (icls ∈ [0, 1, 3, 4, 5, 8, 9, 10, 11] ∧ ifun ≠ 0)
    ∨ (icls ∈ [2, 7] ∧ 7 ≤ ifun)
    ∨ (icls ∈ [6, 12] ∧ 4 ≤ ifun)
    ∨ (icls ∈ [2, 4, 5, 6] ∧ (8 ≤ rA ∨ 8 ≤ rB))
    ∨ (icls ∈ [3, 12] ∧ (rA ≠ 15 ∨ 8 ≤ rB))
    ∨ (icls ∈ [10, 11] ∧ (8 ≤ rA ∨ rB ≠ 15))

/-- The same outcome after a change of the state it carries. -/
def mapNext (f : State → State) : Outcome → Outcome
  | .next s => .next (f s)
  | .fault r => .fault r
  | .refused r => .refused r

end Sys2Proof.Machine
end

