-- ==== Sys2Proof/Certificates/Slice0/Obligations.lean ====
section
/-! DEFINITION. The statements for the provers.  Each docstring names the rule it formalises; where a statement rests on
a reading that the spec marks as its own decision (D<n>) or on a log entry, the docstring says so and the entry in
OBLIGATIONS.json is 'derived'.  A premise `Memory.wf s.mem` is the canonical form of the memory list, which
`ResetSatisfiesInvariant`, `StepKeepsInvariant` and `OutsideMovesKeepInvariant` show every machine to have. -/

open Sys2Proof Sys2Proof.Machine

/-! ### Encoding -/

/-- Decoding the bytes of any instruction gives it back, with every operand at every value, whatever bytes follow it in
memory.  R93 (derived there) with R85 (D15: window bytes beyond the instruction are ignored). -/
def Obligations.DecodeInvertsEncode : Prop :=
  ∀ (i : Instr) (tail : List Byte), decode (Window.ofBytes (encode i ++ tail)) = .ok i

/-- The other direction: an instruction decoded from a window encodes to the first bytes of that window, as many as the
instruction is long, so each window has one meaning and no bit of an instruction is dropped. -/
def Obligations.DecodedWindowReencodesToItsOwnBytes : Prop :=
  ∀ (w : Window) (i : Instr), decode w = .ok i →
    encode i = w.bytes.take (encode i).length ∧ (encode i).length ∈ [1, 2, 5, 6]

/-- R89: a window is an instruction exactly when a row of the table selects it, and it is then selected by the row of its
own mnemonic alone, whose length is the instruction's; no window selects two rows; the table has 31 rows (R92). -/
def Obligations.OneTableRowSelectsEachDecodedInstruction : Prop :=
  opcodeTable.length = 31 ∧
  opcodeTable.Pairwise (fun row other => ∀ w : Window, row.selects w = true → other.selects w = false) ∧
  (∀ w : Window, (∃ i, decode w = .ok i) ↔ ∃ row ∈ opcodeTable, row.selects w = true) ∧
  ∀ (w : Window) (i : Instr) (row : OpcodeRow), decode w = .ok i → row ∈ opcodeTable →
    ((row.selects w = true ↔ row.mnemonic = i.mnemonic) ∧
      (row.mnemonic = i.mnemonic → (encode i).length = row.length))

/-- R90, R232: R90's list is every window that matches no row of R89; an iteration on a fetchable window raises INS exactly
when the window is in that list, and then nothing changes but the status and the step counter.  That INS wins over an
address fault is D7 and that a conditional move validates its fields whatever its condition is D16 (both
notes/assumptions/12.md); that bytes and fields outside the format are ignored is D15 (notes/assumptions/17.md). -/
def Obligations.IllegalEncodingsAndOnlyTheyEndInINS : Prop :=
  (∀ w : Window, IllegalEncoding w.b0 w.b1 ↔ ∀ row ∈ opcodeTable, row.selects w = false) ∧
  ∀ s : State, Ready s →
    ((∃ t, step s = .next t ∧ t.status = .INS) ↔ IllegalEncoding (fetchWindow s).b0 (fetchWindow s).b1) ∧
    (IllegalEncoding (fetchWindow s).b0 (fetchWindow s).b1 →
      step s = .next { s with status := .INS, stepCount := s.stepCount + 1 })

/-- Words written out from the tables of spec/30_encoding.md and the decode vectors of spec/95_test_vectors.md section 2.1
decode to the instructions they stand for. -/
def Obligations.SpecExampleWordsDecode : Prop :=
  decode ⟨0x30, 0xF3, 0x78, 0x56, 0x34, 0x12⟩ = .ok (.irmovl .ebx 0x12345678) ∧
  decode ⟨0x40, 0x12, 0x04, 0x00, 0x00, 0x00⟩ = .ok (.rmmovl .ecx .edx 4) ∧
  decode ⟨0x50, 0x42, 0xFC, 0xFF, 0xFF, 0xFF⟩ = .ok (.mrmovl .esi .edx 0xFFFFFFFC) ∧
  decode ⟨0x74, 0x0C, 0x00, 0x00, 0x00, 0x00⟩ = .ok (.jne 0x0C) ∧
  decode ⟨0x80, 0x20, 0x00, 0x00, 0x00, 0x90⟩ = .ok (.call 0x20) ∧
  decode ⟨0x60, 0x01, 0x00, 0x00, 0x00, 0x00⟩ = .ok (.addl .eax .ecx) ∧
  decode ⟨0xA0, 0x0F, 0x00, 0x00, 0x00, 0x00⟩ = .ok (.pushl .eax) ∧
  decode ⟨0xC1, 0xF1, 0x01, 0x00, 0x00, 0x00⟩ = .ok (.isubl .ecx 1) ∧
  decode ⟨0x00, 0xAA, 0xBB, 0xCC, 0xDD, 0xEE⟩ = .ok .halt ∧
  decode ⟨0xD0, 0x00, 0x00, 0x00, 0x00, 0x00⟩ = .error (.unknownClass 13)

/-- R17: the codec.  Both encodings list the four bytes of the word, in reversed orders of each other; each decoder undoes
its encoder; the sign bit is set exactly from 0x80000000 on; a word store writes the little-endian encoding, a word read
decodes it. -/
def Obligations.CodecRoundTripsInBothByteOrders : Prop :=
  ∀ v : Word,
    (∃ b0 b1 b2 b3 : Byte, encodeLE v = [b0, b1, b2, b3] ∧ encodeBE v = [b3, b2, b1, b0] ∧
      v.toNat = b0.toNat + 256 * b1.toNat + 65536 * b2.toNat + 16777216 * b3.toNat ∧
      decodeLE b0 b1 b2 b3 = v ∧ decodeBE b3 b2 b1 b0 = v) ∧
    (signBit v = true ↔ 0x80000000 ≤ v.toNat) ∧
    ∀ (m : List Host.Cell) (a : Nat), Memory.writeWord m a v = Memory.writeBytes m a (encodeLE v) ∧
      Memory.readWord m a =
        decodeLE (Memory.read m a) (Memory.read m (a + 1)) (Memory.read m (a + 2)) (Memory.read m (a + 3))

/-! ### The iteration and the run -/

/-- R111: with status AOK, budget left and pc fetchable, a step counts and runs the instruction its window decodes to. -/
def Obligations.StepRunsTheDecodedInstruction : Prop :=
  ∀ (s : State) (i : Instr), s.status = .AOK → (∀ limit, s.maxSteps = some limit → s.stepCount < limit) →
    0 ≤ s.pc.toInt → s.pc.toInt ≤ (s.memSize : Int) - 6 → decode (windowAt s s.pc.toNat) = .ok i →
    step s = exec i { s with stepCount := s.stepCount + 1 }

/-- R111 step 1, R271: a pc that is negative or in or beyond the last five bytes ends the run with ADR, uncounted, pc at
that address, whatever bytes lie there (90_conflicts.md C1, C5). -/
def Obligations.UnfetchablePcEndsInADRUncounted : Prop :=
  ∀ s : State, s.status = .AOK → (∀ limit, s.maxSteps = some limit → s.stepCount < limit) →
    (s.pc.toInt < 0 ∨ (s.memSize : Int) - 5 ≤ s.pc.toInt) → step s = .next { s with status := .ADR }

/-- R118: in a terminal status there is no step, and a new run entry executes again, at address 0 with step 0. -/
def Obligations.StoppedMachineStepsOnlyAfterANewRunEntry : Prop :=
  ∀ s : State, s.status ≠ .AOK →
    (∀ t, step s ≠ .next t) ∧
    (runEntry none s).pc = 0 ∧ (runEntry none s).stepCount = 0 ∧ ∃ t, step (runEntry none s) = .next t

/-- R119 (D13: the spec's own semantics of the budget): when `step` has reached the limit the run ends with its own
outcome; before that the limit changes nothing. -/
def Obligations.StepBudgetStopsTheRunAndNothingElse : Prop :=
  ∀ s : State, s.status = .AOK →
    (∀ limit, s.maxSteps = some limit → limit ≤ s.stepCount → step s = .fault .stepLimitExceeded) ∧
    ((∀ limit, s.maxSteps = some limit → s.stepCount < limit) →
      step s = mapNext (fun t => { t with maxSteps := s.maxSteps }) (step { s with maxSteps := none }))

/-- R36: the step counter is 0 at the run entry, counts each iteration whose fetch check passed and no other, and no
instruction reads or writes it.  That a failed fetch is not counted is the spec's resolution C5, and that MEMSIZE - 6 is the
last fetchable address is C1 (both notes/assumptions/26.md). -/
def Obligations.StepCounterCountsDecodedInstructions : Prop :=
  (∀ limit s, (runEntry limit s).stepCount = 0) ∧
  (∀ s t, step s = .next t → t.stepCount =
    if 0 ≤ s.pc.toInt ∧ s.pc.toInt ≤ (s.memSize : Int) - 6 then s.stepCount + 1 else s.stepCount) ∧
  ∀ i s n, exec i { s with stepCount := n } = mapNext (fun t => { t with stepCount := n }) (exec i s)

/-- R235, R236: a step that ends in a terminal status has written the status and nothing else (beside the count), and no
step follows it.  That a failed call or ret leaves esp and memory is the spec's resolution C3 and decision D9
(notes/assumptions/14.md). -/
def Obligations.TerminalStatusIsRaisedWithoutPartialEffects : Prop :=
  ∀ s t, step s = .next t → t.status ≠ .AOK →
    t = { s with status := t.status, stepCount := t.stepCount } ∧ ∀ u, step t ≠ .next u

/-- R230: HLT is raised by the halt instruction, opcode byte 00, and by nothing else. -/
def Obligations.HLTIsRaisedByHaltAlone : Prop :=
  ∀ s : State, s.status = .AOK → s.limitReached = false →
    ((∃ t, step s = .next t ∧ t.status = .HLT) ↔ s.canFetch = true ∧ (fetchWindow s).b0 = 0x00#8)

/-- R231: ADR is raised exactly under the conditions of its table: the fetch check, or the decoded instruction's own
address condition.  In four places the table rests on choices of the spec: the wrapping effective address (D6,
notes/assumptions/11.md), the untaken jump whose target is not checked (D8, notes/assumptions/13.md), the pop bound at
esp = MEMSIZE - 4 (D22, notes/assumptions/19.md) and the fetch bound (C1, notes/assumptions/26.md). -/
def Obligations.ADRHasExactlyTheListedCauses : Prop :=
  ∀ s : State, s.status = .AOK → s.limitReached = false →
    ((∃ t, step s = .next t ∧ t.status = .ADR) ↔
      (s.pc.toInt < 0 ∨ (s.memSize : Int) - 6 < s.pc.toInt) ∨
        ∃ i, decode (fetchWindow s) = .ok i ∧ AddressCause s i)

/-- No refusal and no invented stop (R112, U8): a running machine always has a next state. -/
def Obligations.RunningMachineAlwaysHasASuccessor : Prop :=
  ∀ s : State, s.status = .AOK → s.limitReached = false → ∃ t, step s = .next t

/-- MEMSIZE is "fixed for the life of the hardware" (D2) and MAX_STEPS is an argument of the run entry (R9): no step changes
either. -/
def Obligations.NoStepChangesTheParameters : Prop :=
  ∀ s t, step s = .next t → t.memSize = s.memSize ∧ t.maxSteps = s.maxSteps

/-- The invariant of the machine is kept by every step: MEMSIZE legal, pc between 0 and MEMSIZE (R29), memory canonical and
inside MEMSIZE (R39, R43), the count within the budget (R119). -/
def Obligations.StepKeepsInvariant : Prop := ∀ s t, StateInv s → step s = .next t → StateInv t

/-- Reset satisfies the invariant, for every legal MEMSIZE (and so for the one notes/assumptions/1.md chose). -/
def Obligations.ResetSatisfiesInvariant : Prop :=
  (∀ size, Config.LegalMemSize size → StateInv (State.resetWith size)) ∧ StateInv State.reset

/-- The moves of the outside between runs keep the invariant (R275): run entry, loader, reset. -/
def Obligations.OutsideMovesKeepInvariant : Prop :=
  ∀ s : State, StateInv s →
    (∀ limit, StateInv (runEntry limit s)) ∧ (∀ a bytes t, load a bytes s = some t → StateInv t) ∧ StateInv (hardReset s)

/-- R117, R28: when a run has ended, pc is the address of what stopped it: a halt, an illegal encoding, an address that
cannot be fetched, or an instruction whose address condition holds in the final state itself.  The address conditions rest
on the spec's choices D6, D8 and D22, the priority of INS on D7, the run on D25 (notes/assumptions/11.md, 13.md, 19.md,
12.md, 28.md). -/
def Obligations.EndedRunPointsAtItsCause : Prop :=
  ∀ s t, s.status = .AOK → RunEnds s t →
    (t.status = .HLT ∧ t.canFetch = true ∧ decode (fetchWindow t) = .ok .halt) ∨
    (t.status = .INS ∧ t.canFetch = true ∧ IllegalEncoding (fetchWindow t).b0 (fetchWindow t).b1) ∨
    (t.status = .ADR ∧ (t.canFetch = false ∨ ∃ i, decode (fetchWindow t) = .ok i ∧ AddressCause t i))

/-- R191, R270: a jump to itself never ends the run: after n steps the state is the same but for the count. -/
def Obligations.JumpToItselfNeverStops : Prop :=
  ∀ s : State, Ready s → s.maxSteps = none → decode (fetchWindow s) = .ok (.jmp s.pc) →
    ∀ n, Host.Core.run Sys2Proof.core n s = .next { s with stepCount := s.stepCount + n }

/-! ### Whole-machine frames -/

/-- R31: the flags are written by the eight arithmetic instructions, all three of them and whatever they held, by the
updater of R160; by no other instruction, not at the run entry, and not when the iteration ends in INS. -/
def Obligations.FlagsAreWrittenByArithmeticAlone : Prop :=
  (∀ i s t, exec i s = .next t → writesFlags i = false → t.flags = s.flags) ∧
  (∀ (s : State) (a b : Reg) (v : Word) (m : Instr × AluOp × Word),
    m ∈ [(.addl a b, .add, s.reg a), (.subl a b, .sub, s.reg a), (.andl a b, .and, s.reg a), (.xorl a b, .xor, s.reg a),
      (.iaddl b v, .add, v), (.isubl b v, .sub, v), (.iandl b v, .and, v), (.ixorl b v, .xor, v)] →
    writesFlags m.1 = true ∧ ∀ f, ∃ t, exec m.1 { s with flags := f } = .next t ∧
      t.flags = aluFlags m.2.1 (s.reg b) m.2.2) ∧
  (∀ limit s, (runEntry limit s).flags = s.flags) ∧
  ∀ s t, step s = .next t → t.status = .INS → t.flags = s.flags

/-- R32: only the conditional moves and jumps (function codes 1 to 6) read the flags; what any other instruction does to
the rest of the state is the same for all flags. -/
def Obligations.FlagsAreReadByConditionalsAlone : Prop :=
  ∀ i s f, readsFlags i = false →
    mapNext (fun t => { t with flags := s.flags }) (exec i { s with flags := f }) =
      mapNext (fun t => { t with flags := s.flags }) (exec i s)

/-- R23: a register that an instruction does not use is neither read nor written by it. -/
def Obligations.UnusedRegistersAreNeitherReadNorWritten : Prop :=
  ∀ i s r v, r ∉ uses i → exec i (s.setReg r v) = mapNext (fun t => t.setReg r v) (exec i s)

/-- R51, R64: memory changes only in the four bytes from the store address of rmmovl, pushl and call; every other
instruction leaves all of it alone.  The store address of rmmovl wraps by D6 (notes/assumptions/11.md). -/
def Obligations.MemoryChangesOnlyAtTheStoreAddress : Prop :=
  ∀ i s t, Memory.wf s.mem = true → exec i s = .next t →
    ∀ x, (∀ a, storeAddress s i = some a → x < a ∨ a + 4 ≤ x) → t.byte x = s.byte x

/-- R231 and R235 at the instruction: under its address condition an instruction raises ADR and writes nothing else;
without it every instruction but halt completes with the status it found.  The conditions rest on choices of the spec: the
wrapping effective address (D6, notes/assumptions/11.md), the unchecked untaken jump (D8, 13.md), checks before writes in
call and ret (D9, 14.md) and the pop bound at esp = MEMSIZE - 4 (D22, 19.md). -/
def Obligations.InstructionsCompleteExactlyWithoutAnAddressCause : Prop :=
  ∀ i s, (AddressCause s i → exec i s = .next { s with status := .ADR }) ∧
    (¬ AddressCause s i → i ≠ .halt → ∃ t, exec i s = .next t ∧ t.status = s.status)

/-! ### Results, one family after the other -/

/-- R120: halt. -/
def Obligations.HaltSetsHLTAndNothingElse : Prop :=
  (∀ w : Window, (decode w = .ok .halt ↔ w.b0 = 0x00#8) ∧
    (0 < w.b0.toNat → w.b0.toNat < 16 → ∃ e, decode w = .error e)) ∧
  ∀ s, ∃ t, exec .halt s = .next t ∧ t.status = .HLT ∧ t.pc = s.pc ∧ KeepsRegsExcept [] s t ∧ KeepsFlags s t ∧
    KeepsMemory s t ∧ t.stepCount = s.stepCount ∧ t.memSize = s.memSize ∧ t.maxSteps = s.maxSteps

/-- R121: nop. -/
def Obligations.NopAdvancesPcByOneAndNothingElse : Prop :=
  (∀ w : Window, (decode w = .ok .nop ↔ w.b0 = 0x10#8) ∧
    (0x10 < w.b0.toNat → w.b0.toNat < 0x20 → ∃ e, decode w = .error e)) ∧
  ∀ s, ∃ t, exec .nop s = .next t ∧ t.pc = s.pc + 1 ∧ KeepsRegsExcept [] s t ∧ KeepsFlags s t ∧ KeepsMemory s t ∧
    KeepsEngine s t

/-- R132 to R138: the seven moves of class 2, each with its opcode byte and the formula of its condition written out. -/
def Obligations.MovesCopyExactlyWhenTheirConditionHolds : Prop :=
  ∀ (s : State) (a b : Reg) (m : Instr × Byte × Bool),
    m ∈ [(.rrmovl a b, 0x20#8, true),
      (.cmovle a b, 0x21#8, s.flags.ZF || (s.flags.SF != s.flags.OF)),
      (.cmovl a b, 0x22#8, s.flags.SF != s.flags.OF),
      (.cmove a b, 0x23#8, s.flags.ZF),
      (.cmovne a b, 0x24#8, !s.flags.ZF),
      (.cmovge a b, 0x25#8, s.flags.ZF || (s.flags.SF == s.flags.OF)),
      (.cmovg a b, 0x26#8, !s.flags.ZF && (s.flags.SF == s.flags.OF))] →
    encode m.1 = [m.2.1, BitVec.ofNat 8 (16 * a.index.val + b.index.val)] ∧
    ∃ t, exec m.1 s = .next t ∧ t.reg b = (if m.2.2 then s.reg a else s.reg b) ∧ t.pc = s.pc + 2 ∧
      KeepsRegsExcept [b] s t ∧ KeepsFlags s t ∧ KeepsMemory s t ∧ KeepsEngine s t

/-- R139: irmovl, with its encoding: opcode byte 30 demands rA none and rB a register, 31 to 3F are invalid. -/
def Obligations.IrmovlLoadsItsImmediate : Prop :=
  (∀ w : Window, w.b0 = 0x30#8 →
    ((∃ b v, decode w = .ok (.irmovl b v)) ↔ w.b1.toNat / 16 = 15 ∧ w.b1.toNat % 16 < 8) ∧
    (∀ i, decode w = .ok i → ∃ b v, i = .irmovl b v)) ∧
  (∀ w : Window, 0x30 < w.b0.toNat → w.b0.toNat < 0x40 → ∃ e, decode w = .error e) ∧
  ∀ (s : State) (b : Reg) (v : Word), (encode (.irmovl b v)).length = 6 ∧
    ∃ t, exec (.irmovl b v) s = .next t ∧ t.reg b = v ∧ t.pc = s.pc + 6 ∧
      KeepsRegsExcept [b] s t ∧ KeepsFlags s t ∧ KeepsMemory s t ∧ KeepsEngine s t

/-- R151.  The effective address is base plus displacement modulo 2^32 (R61; the wrap is D6, notes/assumptions/11.md); where
it holds a whole word, the register is stored there little-endian, and every other byte, all registers and flags stay. -/
def Obligations.RmmovlStoresItsRegister : Prop :=
  ∀ (s : State) (a b : Reg) (v : Word),
    (effectiveAddress s b v).toNat = ((s.reg b).toNat + v.toNat) % 2 ^ 32 ∧
    (Memory.wf s.mem = true → 0 ≤ (effectiveAddress s b v).toInt →
      (effectiveAddress s b v).toInt ≤ (s.memSize : Int) - 4 →
      ∃ t, exec (.rmmovl a b v) s = .next t ∧ HoldsWord (effectiveAddress s b v).toNat (s.reg a) t ∧
        t.pc = s.pc + 6 ∧ KeepsMemoryOutside (effectiveAddress s b v).toNat s t ∧
        KeepsRegsExcept [] s t ∧ KeepsFlags s t ∧ KeepsEngine s t)

/-- R152.  The effective address is base plus displacement modulo 2^32 (R61; the wrap is D6, notes/assumptions/11.md); where
it holds a whole word, the register receives the four bytes there, the address formed from the old registers also when both
are one; memory stays. -/
def Obligations.MrmovlLoadsItsRegister : Prop :=
  ∀ (s : State) (a b : Reg) (v : Word),
    (effectiveAddress s b v).toNat = ((s.reg b).toNat + v.toNat) % 2 ^ 32 ∧
    (0 ≤ (effectiveAddress s b v).toInt → (effectiveAddress s b v).toInt ≤ (s.memSize : Int) - 4 →
      ∃ t, exec (.mrmovl a b v) s = .next t ∧
        HoldsWord (effectiveAddress s b v).toNat (t.reg a) s ∧
        t.pc = s.pc + 6 ∧ KeepsRegsExcept [a] s t ∧ KeepsFlags s t ∧ KeepsMemory s t ∧ KeepsEngine s t)

/-- R163, R164: and, xor with both operand forms: the result bit by bit, ZF and SF from it, OF false. -/
def Obligations.AndXorWriteResultAndFlags : Prop :=
  ∀ (s : State) (a b : Reg) (v : Word) (m : Instr × Word × (Bool → Bool → Bool) × Nat),
    m ∈ [(.andl a b, s.reg a, Bool.and, 2), (.iandl b v, v, Bool.and, 6),
      (.xorl a b, s.reg a, Bool.xor, 2), (.ixorl b v, v, Bool.xor, 6)] →
    ∃ t, exec m.1 s = .next t ∧
      (∀ k, k < 32 → (t.reg b).getLsbD k = m.2.2.1 ((s.reg b).getLsbD k) (m.2.1.getLsbD k)) ∧
      t.flags.ZF = decide ((t.reg b).toNat = 0) ∧ t.flags.SF = decide (0x80000000 ≤ (t.reg b).toNat) ∧
      t.flags.OF = false ∧ t.pc = s.pc + BitVec.ofNat 32 m.2.2.2 ∧
      KeepsRegsExcept [b] s t ∧ KeepsMemory s t ∧ KeepsEngine s t

/-- R161 (the wrap is D5): addl and iaddl add to the old destination modulo 2^32; OF is set exactly when the old destination
was negative and the result is not, the second operand's sign playing no part. -/
def Obligations.AddWritesResultAndFlags : Prop :=
  ∀ (s : State) (a b : Reg) (v : Word) (m : Instr × Word × Nat),
    m ∈ [(.addl a b, s.reg a, 2), (.iaddl b v, v, 6)] →
    ∃ t, exec m.1 s = .next t ∧ (t.reg b).toNat = ((s.reg b).toNat + m.2.1.toNat) % 2 ^ 32 ∧
      t.flags.ZF = decide ((t.reg b).toNat = 0) ∧ t.flags.SF = decide (0x80000000 ≤ (t.reg b).toNat) ∧
      t.flags.OF = decide (0x80000000 ≤ (s.reg b).toNat ∧ (t.reg b).toNat < 0x80000000) ∧
      t.pc = s.pc + BitVec.ofNat 32 m.2.2 ∧ KeepsRegsExcept [b] s t ∧ KeepsMemory s t ∧ KeepsEngine s t

/-- R162 (the wrap is D5): subl and isubl subtract from the old destination modulo 2^32; OF is set exactly when the old
destination was not negative and the result is. -/
def Obligations.SubWritesResultAndFlags : Prop :=
  ∀ (s : State) (a b : Reg) (v : Word) (m : Instr × Word × Nat),
    m ∈ [(.subl a b, s.reg a, 2), (.isubl b v, v, 6)] →
    ∃ t, exec m.1 s = .next t ∧
      ((t.reg b).toNat : Int) = (((s.reg b).toNat : Int) - (m.2.1.toNat : Int)) % 2 ^ 32 ∧
      t.flags.ZF = decide ((t.reg b).toNat = 0) ∧ t.flags.SF = decide (0x80000000 ≤ (t.reg b).toNat) ∧
      t.flags.OF = decide ((s.reg b).toNat < 0x80000000 ∧ 0x80000000 ≤ (t.reg b).toNat) ∧
      t.pc = s.pc + BitVec.ofNat 32 m.2.2 ∧ KeepsRegsExcept [b] s t ∧ KeepsMemory s t ∧ KeepsEngine s t

/-- R175 (derived there): what the conditions test after each kind of arithmetic instruction; after a subtraction "l" holds
exactly when the old destination and the result are both negative, which is not the signed order. -/
def Obligations.ConditionsAfterArithmeticTestTheseSigns : Prop :=
  ∀ (s : State) (a b : Reg) (v : Word) (i : Instr),
    i ∈ [Instr.addl a b, .iaddl b v, .subl a b, .isubl b v, .andl a b, .iandl b v, .xorl a b, .ixorl b v] →
    ∃ t, exec i s = .next t ∧
    condHolds .e t.flags = (t.reg b == 0) ∧ condHolds .ne t.flags = !(t.reg b == 0) ∧
    (i ∈ [Instr.addl a b, .iaddl b v] →
      condHolds .l t.flags = (signBit (t.reg b) || signBit (s.reg b)) ∧
      condHolds .le t.flags = (t.reg b == 0 || signBit (t.reg b) || signBit (s.reg b)) ∧
      condHolds .ge t.flags = (!(signBit (t.reg b) || signBit (s.reg b)) || t.reg b == 0) ∧
      condHolds .g t.flags = (!(t.reg b == 0) && !signBit (t.reg b) && !signBit (s.reg b))) ∧
    (i ∈ [Instr.subl a b, .isubl b v] →
      condHolds .l t.flags = (signBit (t.reg b) && signBit (s.reg b)) ∧
      condHolds .le t.flags = (t.reg b == 0 || (signBit (t.reg b) && signBit (s.reg b))) ∧
      condHolds .ge t.flags = !(signBit (t.reg b) && signBit (s.reg b)) ∧
      condHolds .g t.flags = (!(t.reg b == 0) && !(signBit (t.reg b) && signBit (s.reg b)))) ∧
    (i ∈ [Instr.andl a b, .iandl b v, .xorl a b, .ixorl b v] →
      condHolds .l t.flags = signBit (t.reg b) ∧
      condHolds .le t.flags = (t.reg b == 0 || signBit (t.reg b)) ∧
      condHolds .ge t.flags = !signBit (t.reg b) ∧
      condHolds .g t.flags = (!(t.reg b == 0) && !signBit (t.reg b)))

/-- R192 to R198: the seven jumps, each with its opcode byte and the formula of its condition written out.  A taken jump to
a fetchable target goes there; an untaken one adds 5 and never looks at its target (D8). -/
def Obligations.JumpsGoToTheirTargetExactlyWhenTaken : Prop :=
  ∀ (s : State) (d : Word) (m : Instr × Byte × Bool),
    m ∈ [(.jmp d, 0x70#8, true),
      (.jle d, 0x71#8, s.flags.ZF || (s.flags.SF != s.flags.OF)),
      (.jl d, 0x72#8, s.flags.SF != s.flags.OF),
      (.je d, 0x73#8, s.flags.ZF),
      (.jne d, 0x74#8, !s.flags.ZF),
      (.jge d, 0x75#8, s.flags.ZF || (s.flags.SF == s.flags.OF)),
      (.jg d, 0x76#8, !s.flags.ZF && (s.flags.SF == s.flags.OF))] →
    encode m.1 = m.2.1 :: encodeLE d ∧
    ((m.2.2 = true → 0 ≤ d.toInt ∧ d.toInt ≤ (s.memSize : Int) - 6) →
      ∃ t, exec m.1 s = .next t ∧ t.pc = (if m.2.2 then d else s.pc + 5) ∧
        KeepsRegsExcept [] s t ∧ KeepsFlags s t ∧ KeepsMemory s t ∧ KeepsEngine s t)

/-- R199 where target and stack pointer are good (both checked before any write: D9): the return address pc + 5 stands
little-endian at esp - 4, esp is 4 lower, pc is the target. -/
def Obligations.CallPushesItsReturnAddress : Prop :=
  ∀ (s : State) (d : Word), Memory.wf s.mem = true →
    0 ≤ d.toInt → d.toInt ≤ (s.memSize : Int) - 6 → 4 ≤ (s.reg .esp).toInt → (s.reg .esp).toInt < (s.memSize : Int) →
    ∃ t, exec (.call d) s = .next t ∧ t.pc = d ∧ t.reg .esp = s.reg .esp - 4 ∧
      HoldsWord (s.reg .esp - 4).toNat (s.pc + 5) t ∧ KeepsMemoryOutside (s.reg .esp - 4).toNat s t ∧
      KeepsRegsExcept [.esp] s t ∧ KeepsFlags s t ∧ KeepsEngine s t

/-- R200 where the stack pointer and the popped word `d` are good (R59: 90_conflicts.md C2; C3): pc is the popped word, esp
is 4 higher, memory keeps the word. -/
def Obligations.RetPopsItsTarget : Prop :=
  ∀ (s : State) (d : Word), HoldsWord (s.reg .esp).toNat d s →
    0 ≤ (s.reg .esp).toInt → (s.reg .esp).toInt < (s.memSize : Int) - 4 →
    0 ≤ d.toInt → d.toInt ≤ (s.memSize : Int) - 6 →
    ∃ t, exec .ret s = .next t ∧ t.pc = d ∧ t.reg .esp = s.reg .esp + 4 ∧
      KeepsRegsExcept [.esp] s t ∧ KeepsFlags s t ∧ KeepsMemory s t ∧ KeepsEngine s t

/-- R212 where the stack pointer is good: the register's old value stands little-endian at esp - 4, the old esp itself when
the register is esp (D10). -/
def Obligations.PushlStoresTheOldRegister : Prop :=
  ∀ (s : State) (a : Reg), Memory.wf s.mem = true → 4 ≤ (s.reg .esp).toInt → (s.reg .esp).toInt < (s.memSize : Int) →
    ∃ t, exec (.pushl a) s = .next t ∧ t.reg .esp = s.reg .esp - 4 ∧ t.pc = s.pc + 2 ∧
      HoldsWord (s.reg .esp - 4).toNat (s.reg a) t ∧ KeepsMemoryOutside (s.reg .esp - 4).toNat s t ∧
      KeepsRegsExcept [.esp] s t ∧ KeepsFlags s t ∧ KeepsEngine s t

/-- R213 where the stack pointer is good: the register receives the popped word; esp is 4 higher, or the popped word itself
when the register is esp (D10). -/
def Obligations.PoplLoadsThePoppedWord : Prop :=
  ∀ (s : State) (a : Reg), 0 ≤ (s.reg .esp).toInt → (s.reg .esp).toInt < (s.memSize : Int) - 4 →
    ∃ t, exec (.popl a) s = .next t ∧ HoldsWord (s.reg .esp).toNat (t.reg a) s ∧
      (a ≠ .esp → t.reg .esp = s.reg .esp + 4) ∧ t.pc = s.pc + 2 ∧
      KeepsRegsExcept [a, .esp] s t ∧ KeepsFlags s t ∧ KeepsMemory s t ∧ KeepsEngine s t

/-- R214 (derived there): a push and then a pop moves the value and restores esp; a pop and then a push of the popped
register restores esp and every byte of memory.  The second needs MEMSIZE legal (R8), or esp + 4 could wrap.
R214 speaks of the primitives; where the pushed or the popped register is esp itself the first clause holds by D10
(notes/assumptions/15.md): pushl stores the old esp and popl leaves the loaded word. -/
def Obligations.PushAndPopUndoEachOther : Prop :=
  (∀ (s : State) (a b : Reg), Memory.wf s.mem = true → 4 ≤ (s.reg .esp).toInt →
    (s.reg .esp).toInt < (s.memSize : Int) →
    ∃ t u, exec (.pushl a) s = .next t ∧ exec (.popl b) t = .next u ∧ u.reg b = s.reg a ∧
      (b ≠ .esp → u.reg .esp = s.reg .esp)) ∧
  ∀ (s : State) (a : Reg), Config.LegalMemSize s.memSize → Memory.wf s.mem = true → a ≠ .esp →
    0 ≤ (s.reg .esp).toInt → (s.reg .esp).toInt < (s.memSize : Int) - 4 →
    ∃ t u, exec (.popl a) s = .next t ∧ exec (.pushl a) t = .next u ∧ u.reg .esp = s.reg .esp ∧ KeepsMemory s u

/-- The document's round trip (S9, R200): a ret executed with esp and the stacked word as the call left them returns to the
byte after the call and restores esp, whatever else happened in between. -/
def Obligations.RetReturnsBehindItsCall : Prop :=
  ∀ (s : State) (d : Word), Memory.wf s.mem = true →
    0 ≤ d.toInt → d.toInt ≤ (s.memSize : Int) - 6 → 4 ≤ (s.reg .esp).toInt → (s.reg .esp).toInt < (s.memSize : Int) →
    0 ≤ (s.pc + 5).toInt → (s.pc + 5).toInt ≤ (s.memSize : Int) - 6 →
    ∃ t, exec (.call d) s = .next t ∧
      ∀ u : State, u.memSize = t.memSize → u.reg .esp = t.reg .esp →
        (∀ k, k < 4 → u.byte ((t.reg .esp).toNat + k) = t.byte ((t.reg .esp).toNat + k)) →
        ∃ w, exec .ret u = .next w ∧ w.pc = s.pc + 5 ∧ w.reg .esp = s.reg .esp

/-- R68 (derived there, D23): every fetch window after a store, a push or a call shows the stored bytes where it covers
them. -/
def Obligations.StoresAreSeenByTheNextFetch : Prop :=
  ∀ (s : State), Memory.wf s.mem = true →
    (∀ (a b : Reg) (v : Word), 0 ≤ (effectiveAddress s b v).toInt →
      (effectiveAddress s b v).toInt ≤ (s.memSize : Int) - 4 →
      ∃ t, exec (.rmmovl a b v) s = .next t ∧ WindowsShow (effectiveAddress s b v).toNat (s.reg a) t) ∧
    (4 ≤ (s.reg .esp).toInt → (s.reg .esp).toInt < (s.memSize : Int) →
      (∀ a : Reg, ∃ t, exec (.pushl a) s = .next t ∧ WindowsShow (s.reg .esp - 4).toNat (s.reg a) t) ∧
      ∀ d : Word, 0 ≤ d.toInt → d.toInt ≤ (s.memSize : Int) - 6 →
        ∃ t, exec (.call d) s = .next t ∧ WindowsShow (s.reg .esp - 4).toNat (s.pc + 5) t)

/-! ### Reset and the outside -/

/-- The state after reset, for every MEMSIZE (R41, R260, R261; that hardware reset is the document's init is D12, and the size
State.reset carries is notes/assumptions/1.md), and the reset of a machine that exists, whatever state it is in: the same
state with its memory's size kept (notes/assumptions/16.md). -/
def Obligations.ResetClearsEverything : Prop :=
  (∀ size, (∀ r, (State.resetWith size).reg r = 0) ∧
    (State.resetWith size).flags = { ZF := false, SF := false, OF := false } ∧
    (State.resetWith size).status = .AOK ∧ (State.resetWith size).pc = 0 ∧ (State.resetWith size).stepCount = 0 ∧
    (State.resetWith size).memSize = size ∧ (State.resetWith size).maxSteps = none ∧
    ∀ a, (State.resetWith size).byte a = 0) ∧
  (∃ size, State.reset = State.resetWith size) ∧
  ∀ s : State, hardReset s = State.resetWith s.memSize

/-- R261, R265: memory left all zero halts at once with pc 0 and step 1; a memory of less than 6 bytes ends at once in ADR
with step 0 (R117). -/
def Obligations.EmptyMachineHaltsAtOnce : Prop :=
  ∀ size, step (State.resetWith size) =
    if 6 ≤ size then .next { State.resetWith size with status := .HLT, stepCount := 1 }
    else .next { State.resetWith size with status := .ADR }

/-- R110: the run entry sets status, pc and step and nothing else of the machine's state, from every state; the budget of the
run it starts is the one its caller passes (R9, R119; the field maxSteps is notes/assumptions/2.md). -/
def Obligations.RunEntryResetsStatusPcAndStepOnly : Prop :=
  ∀ limit s, (runEntry limit s).status = .AOK ∧ (runEntry limit s).pc = 0 ∧ (runEntry limit s).stepCount = 0 ∧
    KeepsRegsExcept [] s (runEntry limit s) ∧ KeepsFlags s (runEntry limit s) ∧ KeepsMemory s (runEntry limit s) ∧
    (runEntry limit s).memSize = s.memSize ∧ (runEntry limit s).maxSteps = limit

/-- R69: the loader writes its buffer byte for byte and nothing else; a buffer that does not fit is not loaded. -/
def Obligations.LoaderWritesExactlyItsBuffer : Prop :=
  ∀ (s : State) (a : Nat) (bytes : List Byte), Memory.wf s.mem = true →
    (s.memSize < a + bytes.length → load a bytes s = none) ∧
    (a + bytes.length ≤ s.memSize → ∃ t, load a bytes s = some t ∧
      (∀ k x, bytes[k]? = some x → t.byte (a + k) = x) ∧
      (∀ x, x < a ∨ a + bytes.length ≤ x → t.byte x = s.byte x) ∧
      KeepsRegsExcept [] s t ∧ KeepsFlags s t ∧ KeepsEngine s t ∧ t.pc = s.pc)

/-- R21 (the indices of edx, ebx, esi, edi and ebp: D1), R25, R44: the by-name view is the by-index view. -/
def Obligations.NamesAndIndicesReadTheSameRegisters : Prop :=
  ∀ (s : State) (m : String × Fin 8 × Reg),
    m ∈ [("eax", 0, .eax), ("ecx", 1, .ecx), ("edx", 2, .edx), ("ebx", 3, .ebx), ("esi", 4, .esi), ("edi", 5, .edi),
      ("esp", 6, .esp), ("ebp", 7, .ebp)] →
    readName s m.1 = some (s.reg m.2.2) ∧ readIndex s m.2.1 = s.reg m.2.2

/-- R44, R50: the reader's view of memory is the byte at every address 0 to MEMSIZE - 1 and nothing outside; R33, R44: the
string forms of the four statuses; R35: their codes on a 2-bit bus (D11, notes/assumptions/22.md). -/
def Obligations.ReaderSeesMemoryInsideItsSizeAndTheStatusForms : Prop :=
  (∀ (s : State) (a : Nat), (a < s.memSize → readByte s a = some (s.byte a)) ∧
    (s.memSize ≤ a → readByte s a = none)) ∧
  [Status.AOK, .HLT, .ADR, .INS].map Status.text = ["AOK", "HLT", "ADR", "INS"] ∧
  [Status.AOK, .HLT, .ADR, .INS].map (fun st => st.bits.toNat) = [0, 1, 2, 3]
end

