-- ==== Sys2Proof/Laws/Codec.lean ====
section
/-! SUPPORT. The codec (R17, R11): the bytes of a word put together again, and the nibbles of a byte. -/

namespace Sys2Proof.Machine

theorem getLsbD_byteOf (v : Word) (k i : Nat) : (byteOf v k).getLsbD i = (decide (i < 8) && v.getLsbD (8 * k + i)) :=
  BitVec.getLsbD_extractLsb' ..

/-- Bit i of a decoded word stands in byte i / 8. -/
theorem getLsbD_decodeLE (b0 b1 b2 b3 : Byte) (i : Nat) : (decodeLE b0 b1 b2 b3).getLsbD i =
    if i < 8 then b0.getLsbD i else if i < 16 then b1.getLsbD (i - 8) else if i < 24 then b2.getLsbD (i - 16)
    else b3.getLsbD (i - 24) := by
  have h : (decodeLE b0 b1 b2 b3).getLsbD i = if i < 8 then b0.getLsbD i else if i - 8 < 8 then b1.getLsbD (i - 8)
      else if i - 8 - 8 < 8 then b2.getLsbD (i - 8 - 8) else b3.getLsbD (i - 8 - 8 - 8) := by
    refine (BitVec.getLsbD_append (x := b3 ++ b2 ++ b1) (y := b0)).trans ?_
    rw [BitVec.getLsbD_append, BitVec.getLsbD_append]
  rw [h]
  split_ifs <;> first | rfl | omega

/-- Encoding and decoding undo each other (R17). -/
@[simp] theorem decodeLE_byteOf (v : Word) : decodeLE (byteOf v 0) (byteOf v 1) (byteOf v 2) (byteOf v 3) = v := by
  apply BitVec.eq_of_getLsbD_eq
  intro i hi
  rw [getLsbD_decodeLE]
  simp only [getLsbD_byteOf]
  split_ifs
  · simp [*]
  · simp [show i - 8 < 8 by omega, show 8 * 1 + (i - 8) = i by omega]
  · simp [show i - 16 < 8 by omega, show 8 * 2 + (i - 16) = i by omega]
  · simp [show i - 24 < 8 by omega, show 8 * 3 + (i - 24) = i by omega]

/-- Byte k of a decoded word. -/
theorem getLsbD_byteOf_decodeLE (b0 b1 b2 b3 : Byte) (k i : Nat) (hi : i < 8) :
    (byteOf (decodeLE b0 b1 b2 b3) k).getLsbD i =
      if k = 0 then b0.getLsbD i else if k = 1 then b1.getLsbD i else if k = 2 then b2.getLsbD i
      else b3.getLsbD (8 * k + i - 24) := by
  rw [getLsbD_byteOf, getLsbD_decodeLE]
  rcases (by omega : k = 0 ∨ k = 1 ∨ k = 2 ∨ 3 ≤ k) with rfl | rfl | rfl | h
  · simp [hi]
  · simp [hi, show ¬ 8 + i < 8 by omega, show 8 + i < 16 by omega]
  · simp [hi, show ¬ 16 + i < 8 by omega, show ¬ 16 + i < 16 by omega, show 16 + i < 24 by omega]
  · simp [hi, show ¬ 8 * k + i < 8 by omega, show ¬ 8 * k + i < 16 by omega, show ¬ 8 * k + i < 24 by omega,
      show k ≠ 0 by omega, show k ≠ 1 by omega, show k ≠ 2 by omega]

/-- Decoding and encoding undo each other (R17). -/
theorem encodeLE_decodeLE (b0 b1 b2 b3 : Byte) : encodeLE (decodeLE b0 b1 b2 b3) = [b0, b1, b2, b3] := by
  have h (k : Nat) (b : Byte) (hb : ∀ i, i < 8 → (byteOf (decodeLE b0 b1 b2 b3) k).getLsbD i = b.getLsbD i) :
      byteOf (decodeLE b0 b1 b2 b3) k = b := BitVec.eq_of_getLsbD_eq hb
  rw [encodeLE, h 0 b0, h 1 b1, h 2 b2, h 3 b3]
  all_goals
    intro i hi
    simp [getLsbD_byteOf_decodeLE _ _ _ _ _ _ hi]

/-- The bytes of a word as numbers. -/
theorem byteOf_toNat (v : Word) (k : Nat) : (byteOf v k).toNat = v.toNat / 256 ^ k % 256 := by
  have : (2 : Nat) ^ (8 * k) = 256 ^ k := by rw [Nat.pow_mul]
  simp [byteOf, BitVec.extractLsb'_toNat, Nat.shiftRight_eq_div_pow, this]

theorem toNat_append_byte {n : Nat} (x : BitVec n) (b : Byte) : (x ++ b).toNat = 256 * x.toNat + b.toNat := by
  rw [BitVec.toNat_append, Nat.shiftLeft_eq, Nat.mul_comm, ← Nat.two_pow_add_eq_or_of_lt b.isLt]

/-- MemRead(a, 4) as a number (R14). -/
theorem decodeLE_toNat (b0 b1 b2 b3 : Byte) : (decodeLE b0 b1 b2 b3).toNat =
    b0.toNat + 256 * b1.toNat + 65536 * b2.toNat + 16777216 * b3.toNat := by
  have h : (decodeLE b0 b1 b2 b3).toNat = (b3 ++ b2 ++ b1 ++ b0).toNat := rfl
  rw [h, toNat_append_byte, toNat_append_byte, toNat_append_byte]
  omega

theorem getLsbD_nibbles (a b : BitVec 4) (i : Nat) :
    (nibbles a b).getLsbD i = if i < 4 then b.getLsbD i else a.getLsbD (i - 4) :=
  BitVec.getLsbD_append (x := a) (y := b)

@[simp] theorem highNibble_nibbles (a b : BitVec 4) : highNibble (nibbles a b) = a := by
  apply BitVec.eq_of_getLsbD_eq
  intro i hi
  rw [highNibble, BitVec.getLsbD_extractLsb', getLsbD_nibbles]
  simp [hi]

@[simp] theorem lowNibble_nibbles (a b : BitVec 4) : lowNibble (nibbles a b) = b := by
  apply BitVec.eq_of_getLsbD_eq
  intro i hi
  rw [lowNibble, BitVec.getLsbD_extractLsb', getLsbD_nibbles]
  simp [hi]

@[simp] theorem nibbles_of_byte (b : Byte) : nibbles (highNibble b) (lowNibble b) = b := by
  apply BitVec.eq_of_getLsbD_eq
  intro i hi
  rw [getLsbD_nibbles, highNibble, lowNibble, BitVec.getLsbD_extractLsb', BitVec.getLsbD_extractLsb']
  split_ifs with h
  · simp [h]
  · simp [show i - 4 < 4 by omega, show 4 + (i - 4) = i by omega]

/-- The nibbles of a byte as numbers. -/
theorem highNibble_toNat (b : Byte) : (highNibble b).toNat = b.toNat / 16 := by
  have := b.isLt
  simp [highNibble, BitVec.extractLsb'_toNat, Nat.shiftRight_eq_div_pow]
  omega

theorem lowNibble_toNat (b : Byte) : (lowNibble b).toNat = b.toNat % 16 := by
  simp [lowNibble, BitVec.extractLsb'_toNat]

/-- Bit 31 is the sign: it is set exactly from 0x80000000 on. -/
theorem signBit_eq (v : Word) : signBit v = decide (2 ^ 31 ≤ v.toNat) := by
  have h : v.msb = signBit v := by simp [signBit, BitVec.msb_eq_getLsbD_last]
  rw [← h, BitVec.msb_eq_decide]

end Sys2Proof.Machine
end

