-- ==== Sys2Proof/WellFormed.lean ====
section
/-! DEFINITION. Well-formedness of an encoding: the function-code condition of R87 and the register-field conditions of
R86, as a check on the decode temporaries, written from the tables of those two rules and not used by the decoder.
A term of `Instr` needs no check of its own: its types hold exactly the operands R86 to R88 admit. -/

namespace Sys2Proof

/-- What a format demands of a 4-bit register field (R86). -/
inductive FieldKind where
  /-- "must be a valid register": 0 to 7. -/
  | register
  /-- "must be none": 0xF. -/
  | absent
  /-- The format has no register byte: the field is not validated (R85). -/
  | ignored
  deriving DecidableEq, Repr

/-- R86: `valid(r)` is r[3] = 0; `none(r)` is r = 1111. -/
def FieldKind.admits : FieldKind → BitVec 4 → Bool
  | .register, r => !(r.getLsbD 3)
  | .absent, r => r == 0xF#4
  | .ignored, _ => true

/-- R87: how many function codes each class has; the codes are 0 up to that number. -/
def functionCount : Nat → Nat
  | 2 => 7
  | 7 => 7
  | 6 => 4
  | 12 => 4
  | c => if c < 12 then 1 else 0

/-- R86's table: what each class demands of rA and of rB. -/
def fieldKinds : Nat → FieldKind × FieldKind
  | 2 => (.register, .register)
  | 3 => (.absent, .register)
  | 4 => (.register, .register)
  | 5 => (.register, .register)
  | 6 => (.register, .register)
  | 10 => (.register, .absent)
  | 11 => (.register, .absent)
  | 12 => (.absent, .register)
  | _ => (.ignored, .ignored)

/-- The decode temporaries encode an instruction: the class exists and has that function code (R87), and both register
fields are as the class demands (R86). -/
def Fields.wellFormed (f : Fields) : Bool :=
  decide (f.ifun.toNat < functionCount f.icls.toNat)
    && (fieldKinds f.icls.toNat).1.admits f.rA
    && (fieldKinds f.icls.toNat).2.admits f.rB

end Sys2Proof
end

