-- ==== Sys2Proof/Laws/Decode.lean ====
section
/-! SUPPORT. The decoder: register fields and register names are inverse, and a set of decode temporaries decodes exactly
when it is well-formed (R86, R87, R90), so that the decoder and the check of WellFormed.lean agree. -/

namespace Sys2Proof

open Sys2Proof.Machine

@[simp] theorem ofField_field (r : Reg) : Reg.ofField r.field = some r := by cases r <;> rfl

/-- A field names a register exactly when it is that register's field. -/
theorem ofField_eq_some_iff (f : BitVec 4) (r : Reg) : Reg.ofField f = some r ↔ f = r.field := by
  constructor
  · revert f r
    suffices h : ∀ f : BitVec 4, ∀ r, Reg.ofField f = some r → f = r.field from h
    intro f r h
    have hf := f.isLt
    apply BitVec.eq_of_toNat_eq
    unfold Reg.ofField at h
    split at h <;> cases h
    all_goals simp_all [Reg.field, Reg.index]
  · rintro rfl
    exact ofField_field r

/-- R86: `valid(r)` is r[3] = 0. -/
theorem ofField_isSome (f : BitVec 4) : (Reg.ofField f).isSome = !(f.getLsbD 3) := by
  revert f; decide

theorem ofField_eq_none_iff (f : BitVec 4) : Reg.ofField f = none ↔ f.getLsbD 3 = true := by
  rw [← Option.isNone_iff_eq_none, ← Option.not_isSome, ofField_isSome]
  simp

@[simp] theorem field_ne_none (r : Reg) : r.field ≠ 0xF#4 := by cases r <;> decide

/-- What each helper of the decoder accepts. -/
theorem onlyFunctionZero_ok_iff (f : Fields) (r : Except Reject Instr) (i : Instr) :
    onlyFunctionZero f r = .ok i ↔ f.ifun = 0#4 ∧ r = .ok i := by
  unfold onlyFunctionZero
  split <;> simp [*]

theorem twoRegisters_ok_iff (f : Fields) (mk : Reg → Reg → Instr) (i : Instr) :
    twoRegisters f mk = .ok i ↔ ∃ a b, f.rA = a.field ∧ f.rB = b.field ∧ i = mk a b := by
  unfold twoRegisters
  split
  · rename_i a b ha hb
    rw [ofField_eq_some_iff] at ha hb
    constructor
    · intro h; cases h; exact ⟨a, b, ha, hb, rfl⟩
    · rintro ⟨a', b', ha', hb', rfl⟩
      have := ofField_field a
      rw [← ha, ha', ofField_field] at this
      have h2 := ofField_field b
      rw [← hb, hb', ofField_field] at h2
      cases this; cases h2; rfl
  · rename_i hno
    constructor
    · intro h; cases h
    · rintro ⟨a, b, ha, hb, -⟩
      exact absurd (by rw [hb]; exact ofField_field b) (hno a b (by rw [ha]; exact ofField_field a))

theorem noneThenRegister_ok_iff (f : Fields) (mk : Reg → Instr) (i : Instr) :
    noneThenRegister f mk = .ok i ↔ ∃ b : Reg, f.rA = 0xF#4 ∧ f.rB = b.field ∧ i = mk b := by
  unfold noneThenRegister
  split
  · rename_i hA
    cases hB : Reg.ofField f.rB with
    | none =>
      simp only [reduceCtorEq, false_iff, not_exists, not_and]
      intro b _ hb
      rw [hb, ofField_field] at hB
      cases hB
    | some b =>
      rw [ofField_eq_some_iff] at hB
      constructor
      · intro h; cases h; exact ⟨b, hA, hB, rfl⟩
      · rintro ⟨b', -, hb', rfl⟩
        have := ofField_field b
        rw [← hB, hb', ofField_field] at this
        cases this; rfl
  · rename_i hA
    constructor
    · intro h; cases h
    · rintro ⟨b, hA', -, -⟩; exact absurd hA' hA

theorem registerThenNone_ok_iff (f : Fields) (mk : Reg → Instr) (i : Instr) :
    registerThenNone f mk = .ok i ↔ ∃ a : Reg, f.rA = a.field ∧ f.rB = 0xF#4 ∧ i = mk a := by
  unfold registerThenNone
  cases hA : Reg.ofField f.rA with
  | none =>
    simp only [reduceCtorEq, false_iff, not_exists, not_and]
    intro a ha
    rw [ha, ofField_field] at hA
    cases hA
  | some a =>
    have hA' := hA
    rw [ofField_eq_some_iff] at hA
    dsimp only
    split
    · rename_i hB
      constructor
      · intro h; cases h; exact ⟨a, hA, hB, rfl⟩
      · rintro ⟨a', ha', -, rfl⟩
        rw [ha', ofField_field] at hA'
        cases hA'; rfl
    · rename_i hB
      constructor
      · intro h; cases h
      · rintro ⟨a', -, hB', -⟩; exact absurd hB' hB

/-! ### Decoding and well-formedness agree -/

/-- One of the four helpers accepts for some operands exactly when the register fields are of the kinds it demands. -/
theorem exists_field_iff (f : BitVec 4) : (∃ r : Reg, f = r.field) ↔ FieldKind.register.admits f = true := by
  simp only [← ofField_eq_some_iff, FieldKind.admits, ← ofField_isSome, Option.isSome_iff_exists]

theorem absent_admits_iff (f : BitVec 4) : FieldKind.absent.admits f = true ↔ f = 0xF#4 := beq_iff_eq

theorem exists_twoRegisters_iff (f : Fields) (mk : Reg → Reg → Instr) : (∃ i, twoRegisters f mk = .ok i) ↔
    FieldKind.register.admits f.rA = true ∧ FieldKind.register.admits f.rB = true := by
  simp only [twoRegisters_ok_iff, ← exists_field_iff]
  constructor
  · rintro ⟨_, a, b, ha, hb, -⟩; exact ⟨⟨a, ha⟩, ⟨b, hb⟩⟩
  · rintro ⟨⟨a, ha⟩, ⟨b, hb⟩⟩; exact ⟨_, a, b, ha, hb, rfl⟩

theorem exists_noneThenRegister_iff (f : Fields) (mk : Reg → Instr) : (∃ i, noneThenRegister f mk = .ok i) ↔
    FieldKind.absent.admits f.rA = true ∧ FieldKind.register.admits f.rB = true := by
  simp only [noneThenRegister_ok_iff, ← exists_field_iff, absent_admits_iff]
  constructor
  · rintro ⟨_, b, ha, hb, -⟩; exact ⟨ha, ⟨b, hb⟩⟩
  · rintro ⟨ha, ⟨b, hb⟩⟩; exact ⟨_, b, ha, hb, rfl⟩

theorem exists_registerThenNone_iff (f : Fields) (mk : Reg → Instr) : (∃ i, registerThenNone f mk = .ok i) ↔
    FieldKind.register.admits f.rA = true ∧ FieldKind.absent.admits f.rB = true := by
  simp only [registerThenNone_ok_iff, ← exists_field_iff, absent_admits_iff]
  constructor
  · rintro ⟨_, a, ha, hb, -⟩; exact ⟨⟨a, ha⟩, hb⟩
  · rintro ⟨⟨a, ha⟩, hb⟩; exact ⟨_, a, ha, hb, rfl⟩

theorem exists_onlyFunctionZero_iff (f : Fields) (r : Except Reject Instr) :
    (∃ i, onlyFunctionZero f r = .ok i) ↔ f.ifun = 0#4 ∧ ∃ i, r = .ok i := by
  simp only [onlyFunctionZero_ok_iff, exists_and_left]

/-- Decode temporaries decode exactly when they are well-formed: the decoder and R86 with R87 agree. -/
theorem decodeFields_isOk_iff_wellFormed (f : Fields) : (∃ i, decodeFields f = .ok i) ↔ f.wellFormed = true := by
  obtain ⟨icls, ifun, rA, rB, dest, val⟩ := f
  have hz : ifun = 0#4 ↔ ifun.toNat < 1 := by
    rw [← BitVec.toNat_inj]
    simp
  have hlt := ifun.isLt
  simp only [Fields.wellFormed, Bool.and_eq_true, decide_eq_true_eq, decodeFields]
  split
  case h_3 | h_7 | h_8 | h_13 =>
    simp only [functionCount, fieldKinds, decodeMove, decodeAluReg, decodeJump, decodeAluImm]
    split
    all_goals simp_all [exists_twoRegisters_iff, exists_noneThenRegister_iff, FieldKind.admits]
    try omega
  case h_14 h0 h1 h2 h3 h4 h5 h6 h7 h8 h9 h10 h11 h12 =>
    have h (k : Nat) (hk : icls.toNat = k → False) : icls.toNat ≠ k := hk
    have hge : ¬ icls.toNat < 12 := by
      have := And.intro (h 0 h0) (And.intro (h 1 h1) (And.intro (h 2 h2) (And.intro (h 3 h3) (And.intro (h 4 h4)
        (And.intro (h 5 h5) (And.intro (h 6 h6) (And.intro (h 7 h7) (And.intro (h 8 h8) (And.intro (h 9 h9)
        (And.intro (h 10 h10) (h 11 h11)))))))))))
      omega
    have hc : functionCount icls.toNat = 0 := by
      unfold functionCount
      split <;> first | contradiction | exact if_neg hge
    simp [hc]
  all_goals
    simp_all [exists_onlyFunctionZero_iff, exists_twoRegisters_iff, exists_noneThenRegister_iff,
      exists_registerThenNone_iff, functionCount, fieldKinds, FieldKind.admits, and_assoc]

end Sys2Proof
end

