-- ==== Sys2Proof/Laws/State.lean ====
section
/-! SUPPORT. One lemma per field of State per named update, true by rfl, and the register file's read-after-write. -/

namespace Sys2Proof.Machine

variable (s : State) (r q : Reg) (v : Word) (a n : Nat) (st : Status) (limit : Option Nat)

@[simp] theorem setReg_flags : (s.setReg r v).flags = s.flags := rfl
@[simp] theorem setReg_status : (s.setReg r v).status = s.status := rfl
@[simp] theorem setReg_pc : (s.setReg r v).pc = s.pc := rfl
@[simp] theorem setReg_stepCount : (s.setReg r v).stepCount = s.stepCount := rfl
@[simp] theorem setReg_memSize : (s.setReg r v).memSize = s.memSize := rfl
@[simp] theorem setReg_mem : (s.setReg r v).mem = s.mem := rfl
@[simp] theorem setReg_maxSteps : (s.setReg r v).maxSteps = s.maxSteps := rfl

@[simp] theorem setWord_regs : (s.setWord a v).regs = s.regs := rfl
@[simp] theorem setWord_flags : (s.setWord a v).flags = s.flags := rfl
@[simp] theorem setWord_status : (s.setWord a v).status = s.status := rfl
@[simp] theorem setWord_pc : (s.setWord a v).pc = s.pc := rfl
@[simp] theorem setWord_stepCount : (s.setWord a v).stepCount = s.stepCount := rfl
@[simp] theorem setWord_memSize : (s.setWord a v).memSize = s.memSize := rfl
@[simp] theorem setWord_mem : (s.setWord a v).mem = Memory.writeWord s.mem a v := rfl
@[simp] theorem setWord_maxSteps : (s.setWord a v).maxSteps = s.maxSteps := rfl

@[simp] theorem advance_regs : (advance n s).regs = s.regs := rfl
@[simp] theorem advance_flags : (advance n s).flags = s.flags := rfl
@[simp] theorem advance_status : (advance n s).status = s.status := rfl
@[simp] theorem advance_pc : (advance n s).pc = s.pc + BitVec.ofNat 32 n := rfl
@[simp] theorem advance_stepCount : (advance n s).stepCount = s.stepCount := rfl
@[simp] theorem advance_memSize : (advance n s).memSize = s.memSize := rfl
@[simp] theorem advance_mem : (advance n s).mem = s.mem := rfl
@[simp] theorem advance_maxSteps : (advance n s).maxSteps = s.maxSteps := rfl

@[simp] theorem countStep_regs : (countStep s).regs = s.regs := rfl
@[simp] theorem countStep_flags : (countStep s).flags = s.flags := rfl
@[simp] theorem countStep_status : (countStep s).status = s.status := rfl
@[simp] theorem countStep_pc : (countStep s).pc = s.pc := rfl
@[simp] theorem countStep_stepCount : (countStep s).stepCount = s.stepCount + 1 := rfl
@[simp] theorem countStep_memSize : (countStep s).memSize = s.memSize := rfl
@[simp] theorem countStep_mem : (countStep s).mem = s.mem := rfl
@[simp] theorem countStep_maxSteps : (countStep s).maxSteps = s.maxSteps := rfl

@[simp] theorem runEntry_regs : (runEntry limit s).regs = s.regs := rfl
@[simp] theorem runEntry_flags : (runEntry limit s).flags = s.flags := rfl
@[simp] theorem runEntry_status : (runEntry limit s).status = .AOK := rfl
@[simp] theorem runEntry_pc : (runEntry limit s).pc = Config.entryPoint := rfl
@[simp] theorem runEntry_stepCount : (runEntry limit s).stepCount = 0 := rfl
@[simp] theorem runEntry_memSize : (runEntry limit s).memSize = s.memSize := rfl
@[simp] theorem runEntry_mem : (runEntry limit s).mem = s.mem := rfl
@[simp] theorem runEntry_maxSteps : (runEntry limit s).maxSteps = limit := rfl

theorem index_injective (r q : Reg) (h : r.index = q.index) : r = q := by
  cases r <;> cases q <;> first | rfl | exact absurd h (by decide)

/-- Reading a register after a write: the written value there, the old one elsewhere. -/
theorem reg_setReg : (s.setReg r v).reg q = if q = r then v else s.reg q := by
  by_cases h : q = r
  · simp [State.setReg, State.reg, h]
  · have hne : ¬ r.index.val = q.index.val := fun e => h (index_injective q r (Fin.ext e.symm))
    simp [State.setReg, State.reg, h, hne]

@[simp] theorem reg_setReg_same : (s.setReg r v).reg r = v := by simp [reg_setReg]

theorem reg_setReg_of_ne {q r : Reg} (h : q ≠ r) : (s.setReg r v).reg q = s.reg q := by simp [reg_setReg, h]

/-- Writes to two registers in either order. -/
theorem setReg_comm {q r : Reg} (h : r ≠ q) (x : Word) : (s.setReg r v).setReg q x = (s.setReg q x).setReg r v := by
  have hne : ¬ r.index.val = q.index.val := fun e => h (index_injective r q (Fin.ext e))
  simp only [State.setReg]
  congr 1
  exact Vector.set_comm _ _ hne

/-- A register is read through the register file alone. -/
theorem reg_congr {s t : State} (h : t.regs = s.regs) : t.reg r = s.reg r := by simp [State.reg, h]

@[simp] theorem reg_setWord : (s.setWord a v).reg q = s.reg q := rfl
@[simp] theorem reg_advance : (advance n s).reg q = s.reg q := rfl
@[simp] theorem reg_countStep : (countStep s).reg q = s.reg q := rfl
@[simp] theorem reg_runEntry : (runEntry limit s).reg q = s.reg q := rfl
@[simp] theorem byte_setReg : (s.setReg r v).byte a = s.byte a := rfl
@[simp] theorem byte_advance : (advance n s).byte a = s.byte a := rfl
@[simp] theorem byte_countStep : (countStep s).byte a = s.byte a := rfl
@[simp] theorem byte_runEntry : (runEntry limit s).byte a = s.byte a := rfl
@[simp] theorem word_setReg : (s.setReg r v).word a = s.word a := rfl
@[simp] theorem word_advance : (advance n s).word a = s.word a := rfl
@[simp] theorem word_countStep : (countStep s).word a = s.word a := rfl

end Sys2Proof.Machine
end

