-- ==== Sys2Proof/Laws/Memory.lean ====
section
/-! SUPPORT. Memory: a read after a write, everywhere; every memory operation keeps the canonical form and stays inside
the addresses it writes. -/

namespace Sys2Proof.Machine

/-! ### One byte -/

theorem Memory.read_of_below_all {m : List Host.Cell} {a : Nat} (h : m.all (fun c => decide (a < c.1)) = true) :
    Memory.read m a = Memory.unlisted := by
  induction m with
  | nil => rfl
  | cons c m ih =>
    obtain ⟨k, w⟩ := c
    simp only [List.all_cons, Bool.and_eq_true, decide_eq_true_eq] at h
    rw [Memory.read, if_neg (by omega), ih h.2]

theorem Memory.read_cons (a b : Nat) (v : Byte) {m : List Host.Cell}
    (h : m.all (fun c => decide (a < c.1)) = true) :
    Memory.read (Memory.cons a v m) b = if b = a then v else Memory.read m b := by
  unfold Memory.cons
  by_cases hv : v = Memory.unlisted
  · by_cases hb : b = a
    · subst hb; simp [hv, Memory.read_of_below_all h]
    · simp [hv, hb]
  · simp [hv, Memory.read, eq_comm]

/-- What the canonical form says of a memory with a first cell. -/
theorem Memory.wf_cons_iff (k : Nat) (w : Byte) (m : List Host.Cell) :
    Memory.wf ((k, w) :: m) = true ↔
      w ≠ Memory.unlisted ∧ m.all (fun c => decide (k < c.1)) = true ∧ Memory.wf m = true := by
  simp only [Memory.wf, Bool.and_eq_true, bne_iff_ne, and_assoc]

theorem Memory.all_lt_trans {m : List Host.Cell} {a k : Nat} (hak : a < k)
    (h : m.all (fun c => decide (k < c.1)) = true) : m.all (fun c => decide (a < c.1)) = true := by
  simp only [List.all_eq_true, decide_eq_true_eq] at h ⊢
  exact fun c hc => lt_trans hak (h c hc)

/-- Read after write, at every address. -/
theorem Memory.read_write {m : List Host.Cell} (hm : Memory.wf m = true) (a b : Nat) (v : Byte) :
    Memory.read (Memory.write m a v) b = if b = a then v else Memory.read m b := by
  induction m with
  | nil => exact Memory.read_cons a b v rfl
  | cons c m ih =>
    obtain ⟨k, w⟩ := c
    obtain ⟨-, hall, hwf⟩ := (Memory.wf_cons_iff k w m).mp hm
    by_cases h1 : a < k
    · rw [Memory.write, if_pos h1, Memory.read_cons]
      simp only [List.all_cons, Bool.and_eq_true, decide_eq_true_eq]
      exact ⟨h1, Memory.all_lt_trans h1 hall⟩
    · by_cases h2 : a = k
      · subst h2
        rw [Memory.write, if_neg h1, if_pos rfl, Memory.read_cons _ _ _ hall]
        by_cases hb : b = a
        · simp [hb]
        · simp [hb, Memory.read, Ne.symm hb]
      · rw [Memory.write, if_neg h1, if_neg h2, Memory.read, Memory.read, ih hwf]
        by_cases hb : k = b
        · subst hb; simp [Ne.symm h2]
        · simp [hb]

theorem Memory.all_cons {p : Host.Cell → Bool} {a : Nat} {v : Byte} {m : List Host.Cell} (hp : p (a, v) = true)
    (hm : m.all p = true) : (Memory.cons a v m).all p = true := by
  unfold Memory.cons
  split
  · exact hm
  · simp [hp, hm]

/-- What holds of every cell and of the written one holds after the write. -/
theorem Memory.all_write {p : Host.Cell → Bool} {a : Nat} {v : Byte} {m : List Host.Cell} (hp : p (a, v) = true)
    (hm : m.all p = true) : (Memory.write m a v).all p = true := by
  induction m with
  | nil => exact Memory.all_cons hp rfl
  | cons c m ih =>
    obtain ⟨k, w⟩ := c
    have hm' := hm
    simp only [List.all_cons, Bool.and_eq_true] at hm'
    simp only [Memory.write]
    split
    · exact Memory.all_cons hp hm
    · split
      · exact Memory.all_cons hp hm'.2
      · simp [hm'.1, ih hm'.2]

theorem Memory.wf_cons {a : Nat} {v : Byte} {m : List Host.Cell} (hall : m.all (fun c => decide (a < c.1)) = true)
    (hm : Memory.wf m = true) : Memory.wf (Memory.cons a v m) = true := by
  unfold Memory.cons
  split
  · exact hm
  · exact (Memory.wf_cons_iff a v m).mpr ⟨‹_›, hall, hm⟩

/-- A write keeps the canonical form. -/
theorem Memory.wf_write {m : List Host.Cell} (hm : Memory.wf m = true) (a : Nat) (v : Byte) :
    Memory.wf (Memory.write m a v) = true := by
  induction m with
  | nil => exact Memory.wf_cons rfl rfl
  | cons c m ih =>
    obtain ⟨k, w⟩ := c
    obtain ⟨hw, hall, hwf⟩ := (Memory.wf_cons_iff k w m).mp hm
    simp only [Memory.write]
    split
    · refine Memory.wf_cons ?_ hm
      simp only [List.all_cons, Bool.and_eq_true, decide_eq_true_eq]
      exact ⟨‹_›, Memory.all_lt_trans ‹_› hall⟩
    · split
      · subst_vars; exact Memory.wf_cons hall hwf
      · exact (Memory.wf_cons_iff k w _).mpr ⟨hw, Memory.all_write (by simp; omega) hall, ih hwf⟩

/-- A write at an address below `n` keeps every listed address below `n`. -/
theorem Memory.below_write {n a : Nat} {m : List Host.Cell} (ha : a < n) (hm : Memory.below n m = true) (v : Byte) :
    Memory.below n (Memory.write m a v) = true :=
  Memory.all_write (by simpa using ha) hm

/-! ### One word -/

theorem Memory.wf_writeWord {m : List Host.Cell} (hm : Memory.wf m = true) (a : Nat) (v : Word) :
    Memory.wf (Memory.writeWord m a v) = true := by
  unfold Memory.writeWord
  exact Memory.wf_write (Memory.wf_write (Memory.wf_write (Memory.wf_write hm _ _) _ _) _ _) _ _

theorem Memory.below_writeWord {n a : Nat} {m : List Host.Cell} (ha : a + 4 ≤ n) (hm : Memory.below n m = true)
    (v : Word) : Memory.below n (Memory.writeWord m a v) = true := by
  unfold Memory.writeWord
  exact Memory.below_write (by omega) (Memory.below_write (by omega) (Memory.below_write (by omega)
    (Memory.below_write (by omega) hm _) _) _) _

/-- Every byte after a word write. -/
theorem Memory.read_writeWord {m : List Host.Cell} (hm : Memory.wf m = true) (a b : Nat) (v : Word) :
    Memory.read (Memory.writeWord m a v) b =
      if b = a + 3 then byteOf v 3 else if b = a + 2 then byteOf v 2 else if b = a + 1 then byteOf v 1
      else if b = a then byteOf v 0 else Memory.read m b := by
  have h0 := Memory.wf_write hm a (byteOf v 0)
  have h1 := Memory.wf_write h0 (a + 1) (byteOf v 1)
  have h2 := Memory.wf_write h1 (a + 2) (byteOf v 2)
  rw [Memory.writeWord, Memory.read_write h2, Memory.read_write h1, Memory.read_write h0, Memory.read_write hm]

/-- A word write leaves every byte outside its four alone. -/
theorem Memory.read_writeWord_outside {m : List Host.Cell} (hm : Memory.wf m = true) {a b : Nat} (v : Word)
    (h : b < a ∨ a + 4 ≤ b) : Memory.read (Memory.writeWord m a v) b = Memory.read m b := by
  rw [Memory.read_writeWord hm, if_neg (by omega), if_neg (by omega), if_neg (by omega), if_neg (by omega)]

/-- Byte k of a written word. -/
theorem Memory.read_writeWord_inside {m : List Host.Cell} (hm : Memory.wf m = true) (a : Nat) (v : Word) {k : Nat}
    (hk : k < 4) : Memory.read (Memory.writeWord m a v) (a + k) = byteOf v k := by
  rw [Memory.read_writeWord hm]
  rcases (by omega : k = 0 ∨ k = 1 ∨ k = 2 ∨ k = 3) with rfl | rfl | rfl | rfl <;> simp

/-- Reading a word back. -/
theorem Memory.readWord_writeWord {m : List Host.Cell} (hm : Memory.wf m = true) (a : Nat) (v : Word) :
    Memory.readWord (Memory.writeWord m a v) a = v := by
  have h (k : Nat) (hk : k < 4) := Memory.read_writeWord_inside hm a v hk
  have h0 := h 0 (by omega)
  rw [Nat.add_zero] at h0
  rw [Memory.readWord, h0, h 1 (by omega), h 2 (by omega), h 3 (by omega), decodeLE_byteOf]

/-! ### A buffer of bytes -/

theorem Memory.wf_writeBytes {m : List Host.Cell} (hm : Memory.wf m = true) (a : Nat) (bs : List Byte) :
    Memory.wf (Memory.writeBytes m a bs) = true := by
  induction bs generalizing m a with
  | nil => exact hm
  | cons b bs ih => exact ih (Memory.wf_write hm a b) (a + 1)

theorem Memory.below_writeBytes {n a : Nat} {m : List Host.Cell} (bs : List Byte) (ha : a + bs.length ≤ n)
    (hm : Memory.below n m = true) : Memory.below n (Memory.writeBytes m a bs) = true := by
  induction bs generalizing m a with
  | nil => exact hm
  | cons b bs ih =>
    simp only [List.length_cons] at ha
    exact ih (by omega) (Memory.below_write (by omega) hm b)

/-- A written buffer is read back byte for byte, and every byte outside it is as before. -/
theorem Memory.read_writeBytes {m : List Host.Cell} (hm : Memory.wf m = true) (a : Nat) (bs : List Byte) :
    (∀ k x, bs[k]? = some x → Memory.read (Memory.writeBytes m a bs) (a + k) = x) ∧
    (∀ b, b < a ∨ a + bs.length ≤ b → Memory.read (Memory.writeBytes m a bs) b = Memory.read m b) := by
  induction bs generalizing m a with
  | nil => exact ⟨fun k x h => by simp at h, fun _ _ => rfl⟩
  | cons v bs ih =>
    obtain ⟨inside, outside⟩ := ih (Memory.wf_write hm a v) (a + 1)
    constructor
    · intro k x h
      cases k with
      | zero =>
        simp only [List.getElem?_cons_zero, Option.some.injEq] at h
        rw [Memory.writeBytes, outside _ (by omega), Memory.read_write hm, Nat.add_zero, if_pos rfl, h]
      | succ k =>
        rw [Memory.writeBytes, ← inside k x (by simpa using h), Nat.add_right_comm, Nat.add_assoc]
    · intro b hb
      simp only [List.length_cons] at hb
      rw [Memory.writeBytes, outside _ (by omega), Memory.read_write hm, if_neg (by omega)]

/-- Reset memory is in the canonical form and inside every size. -/
theorem reset_mem_wf (size : Nat) :
    Memory.wf (State.resetWith size).mem = true ∧ Memory.below size (State.resetWith size).mem = true := ⟨rfl, rfl⟩

end Sys2Proof.Machine
end

