-- ==== Sys2Proof/Laws/Ops.lean ====
section
/-! SUPPORT. What each shared operation can do, said once: the bounds predicates as inequalities, the stack primitives,
the checked jump, the fetch window, and the loop condition. -/

namespace Sys2Proof.Machine

variable {s t : State} {v : Word}

/-! ### Bounds -/

theorem fetchOK_iff {n : Nat} {a : Int} : fetchOK n a = true ↔ 0 ≤ a ∧ a ≤ (n : Int) - 6 := decide_eq_true_iff
theorem wordOK_iff {n : Nat} {a : Int} : wordOK n a = true ↔ 0 ≤ a ∧ a ≤ (n : Int) - 4 := decide_eq_true_iff
theorem pushOK_iff {n : Nat} {e : Int} : pushOK n e = true ↔ 4 ≤ e ∧ e < (n : Int) := decide_eq_true_iff
theorem popOK_iff {n : Nat} {e : Int} : popOK n e = true ↔ 0 ≤ e ∧ e < (n : Int) - 4 := decide_eq_true_iff

/-- The two readings of a word agree where the signed one is not negative (R12). -/
theorem toNat_of_nonneg (h : 0 ≤ v.toInt) : (v.toNat : Int) = v.toInt := by
  rw [BitVec.toInt_eq_toNat_cond] at h ⊢
  split at h <;> split <;> omega

/-- A small unsigned reading is the signed one. -/
theorem toInt_of_lt (h : v.toNat < 2 ^ 31) : v.toInt = (v.toNat : Int) := by
  rw [BitVec.toInt_eq_toNat_cond, if_pos (by omega)]

theorem toInt_bounds (v : Word) : -(2 ^ 31 : Int) ≤ v.toInt ∧ v.toInt < 2 ^ 31 := by
  have := v.isLt
  rw [BitVec.toInt_eq_toNat_cond]
  split <;> omega

/-- Adding a small number to a word that stays below 2^31 (R62: the arithmetic on pc and esp never overflows). -/
theorem toInt_add_ofNat {n : Nat} (h0 : 0 ≤ v.toInt) (h : v.toInt + n < 2 ^ 31) :
    (v + BitVec.ofNat 32 n).toInt = v.toInt + n := by
  have hv := toNat_of_nonneg h0
  have hb : v.toNat + n < 2 ^ 31 := by omega
  have hn : (v + BitVec.ofNat 32 n).toNat = v.toNat + n := by
    rw [BitVec.toNat_add, BitVec.toNat_ofNat]
    omega
  rw [toInt_of_lt (by omega), hn]
  omega

/-- The pushed word's address (R58, R62): a stack pointer from 4 on less 4. -/
theorem toNat_sub_four (h : 4 ≤ v.toInt) : (v - 4).toNat = v.toNat - 4 ∧ 4 ≤ v.toNat := by
  have hv := toNat_of_nonneg (v := v) (by omega)
  have : (4 : Word).toNat = 4 := rfl
  have hlt := v.isLt
  refine ⟨?_, by omega⟩
  rw [BitVec.toNat_sub, this]
  omega

theorem toInt_sub_four (h : 4 ≤ v.toInt) : (v - 4).toInt = v.toInt - 4 := by
  obtain ⟨he, hge⟩ := toNat_sub_four h
  have hv := toNat_of_nonneg (v := v) (by omega)
  have hb := toInt_bounds v
  rw [toInt_of_lt (by omega), he]
  omega

/-! ### Stack primitives and jumps -/

/-- R210: a push either fails its bound or is these two writes. -/
theorem push_eq_some_iff : push v s = some t ↔ pushOK s.memSize (s.reg .esp).toInt = true ∧
    t = (s.setReg .esp (s.reg .esp - 4)).setWord (s.reg .esp - 4).toNat v := by
  unfold push
  cases pushOK s.memSize (s.reg .esp).toInt with
  | true => simp only [if_true, Option.some.injEq, true_and]; exact eq_comm
  | false => simp

theorem push_eq_none_iff : push v s = none ↔ pushOK s.memSize (s.reg .esp).toInt = false := by
  unfold push
  split <;> simp_all

/-- R211: a pop either fails its bound or is this read and this write. -/
theorem pop_eq_some_iff : pop s = some (v, t) ↔ popOK s.memSize (s.reg .esp).toInt = true ∧
    v = s.word (s.reg .esp).toNat ∧ t = s.setReg .esp (s.reg .esp + 4) := by
  unfold pop
  cases popOK s.memSize (s.reg .esp).toInt with
  | true =>
    simp only [if_true, Option.some.injEq, Prod.mk.injEq, true_and]
    exact and_congr eq_comm eq_comm
  | false => simp

theorem pop_eq_none_iff : pop s = none ↔ popOK s.memSize (s.reg .esp).toInt = false := by
  unfold pop
  split <;> simp_all

/-- R190: a checked transfer either moves pc alone or raises ADR. -/
theorem jumpTo_cases (d : Word) (s : State) :
    (fetchOK s.memSize d.toInt = true ∧ jumpTo d s = .next { s with pc := d }) ∨
    (fetchOK s.memSize d.toInt = false ∧ jumpTo d s = .next { s with status := .ADR }) := by
  unfold jumpTo raise
  cases h : fetchOK s.memSize d.toInt <;> simp

/-! ### Memory of a state -/

/-- Every byte after MemWrite(a, 4, x). -/
theorem byte_setWord (hm : Memory.wf s.mem = true) (a b : Nat) (x : Word) : (s.setWord a x).byte b =
    if b = a + 3 then byteOf x 3 else if b = a + 2 then byteOf x 2 else if b = a + 1 then byteOf x 1
    else if b = a then byteOf x 0 else s.byte b := Memory.read_writeWord hm a b x

theorem byte_setWord_outside (hm : Memory.wf s.mem = true) {a b : Nat} (x : Word) (h : b < a ∨ a + 4 ≤ b) :
    (s.setWord a x).byte b = s.byte b := Memory.read_writeWord_outside hm x h

theorem byte_setWord_inside (hm : Memory.wf s.mem = true) (a : Nat) (x : Word) {k : Nat} (hk : k < 4) :
    (s.setWord a x).byte (a + k) = byteOf x k := Memory.read_writeWord_inside hm a x hk

theorem word_setWord (hm : Memory.wf s.mem = true) (a : Nat) (x : Word) : (s.setWord a x).word a = x :=
  Memory.readWord_writeWord hm a x

/-- The written word stands in memory little-endian, and the rest of memory is as before (R14, R52, R64). -/
theorem setWord_holdsWord (hm : Memory.wf s.mem = true) (a : Nat) (x : Word) :
    HoldsWord a x (s.setWord a x) ∧ KeepsMemoryOutside a s (s.setWord a x) :=
  ⟨fun _ hk => by rw [byte_setWord_inside hm a x hk, byteOf_toNat], fun _ hb => byte_setWord_outside hm x hb⟩

/-- The word read from an address is the one word its four bytes hold. -/
theorem word_eq_iff_holdsWord (s : State) (a : Nat) (x : Word) : s.word a = x ↔ HoldsWord a x s := by
  have key : encodeLE (s.word a) = [s.byte a, s.byte (a + 1), s.byte (a + 2), s.byte (a + 3)] := encodeLE_decodeLE ..
  simp only [encodeLE, List.cons.injEq, and_true] at key
  obtain ⟨k0, k1, k2, k3⟩ := key
  constructor
  · rintro rfl k hk
    rcases (by omega : k = 0 ∨ k = 1 ∨ k = 2 ∨ k = 3) with rfl | rfl | rfl | rfl
    · rw [Nat.add_zero, ← k0, byteOf_toNat]
    · rw [← k1, byteOf_toNat]
    · rw [← k2, byteOf_toNat]
    · rw [← k3, byteOf_toNat]
  · intro h
    have e (k : Nat) (hk : k < 4) : s.byte (a + k) = byteOf x k := by
      apply BitVec.eq_of_toNat_eq
      rw [h k hk, byteOf_toNat]
    have e0 := e 0 (by omega)
    rw [Nat.add_zero] at e0
    exact (congr (congr (congr (congrArg decodeLE e0) (e 1 (by omega))) (e 2 (by omega))) (e 3 (by omega))).trans
      (decodeLE_byteOf x)

/-- Storing a word where it already stands changes no byte. -/
theorem byte_setWord_of_holdsWord (hm : Memory.wf s.mem = true) {a : Nat} {x : Word} (h : HoldsWord a x s) (b : Nat) :
    (s.setWord a x).byte b = s.byte b := by
  by_cases hb : b < a ∨ a + 4 ≤ b
  · exact byte_setWord_outside hm x hb
  · obtain ⟨k, rfl⟩ : ∃ k, b = a + k := ⟨b - a, by omega⟩
    apply BitVec.eq_of_toNat_eq
    rw [byte_setWord_inside hm a x (by omega), byteOf_toNat, h k (by omega)]

/-- Byte k of a window is the byte k further on in memory (R53, R83). -/
theorem windowAt_bytes (s : State) (p : Nat) {k : Nat} (hk : k < 6) :
    (windowAt s p).bytes[k]? = some (s.byte (p + k)) := by
  rcases (by omega : k = 0 ∨ k = 1 ∨ k = 2 ∨ k = 3 ∨ k = 4 ∨ k = 5) with rfl | rfl | rfl | rfl | rfl | rfl <;> rfl

/-- A word that stands in memory is seen by every window over it. -/
theorem windowsShow_of_holdsWord {a : Nat} {x : Word} (h : HoldsWord a x s) : WindowsShow a x s := by
  intro p k j hk hj e
  exact ⟨_, windowAt_bytes s p hk, by rw [e]; exact h j hj⟩

/-! ### The iteration -/

/-- R118: a terminal status makes `step` a fault; AOK never does. -/
theorem stopFault_eq_none_iff (st : Status) : st.stopFault = none ↔ st = .AOK := by cases st <;> simp [Status.stopFault]

theorem limitReached_false_iff : s.limitReached = false ↔ ∀ limit, s.maxSteps = some limit → s.stepCount < limit := by
  unfold State.limitReached
  cases s.maxSteps <;> simp

/-- One step says which of the three things it is: a stop, the end of the budget, or an iteration. -/
theorem step_eq_next_iff : step s = .next t ↔ s.status = .AOK ∧ s.limitReached = false ∧ iteration s = .next t := by
  unfold step
  cases h : s.status.stopFault with
  | some f =>
    have : s.status ≠ .AOK := fun e => by simp [e, Status.stopFault] at h
    simp [this]
  | none =>
    rw [stopFault_eq_none_iff] at h
    cases hl : s.limitReached <;> simp [h]

theorem step_of_running (h : s.status = .AOK) (hl : s.limitReached = false) : step s = iteration s := by
  simp [step, h, hl, Status.stopFault]

/-- The three ways of one iteration (R111). -/
theorem iteration_cases (s : State) :
    (s.canFetch = false ∧ iteration s = .next { s with status := .ADR }) ∨
    (∃ e, s.canFetch = true ∧ decode (fetchWindow s) = .error e ∧
      iteration s = .next { countStep s with status := .INS }) ∨
    (∃ i, s.canFetch = true ∧ decode (fetchWindow s) = .ok i ∧ iteration s = exec i (countStep s)) := by
  unfold iteration raise
  cases s.canFetch with
  | false => simp
  | true =>
    cases h : decode (fetchWindow s) with
    | ok i => simp
    | error e => simp

end Sys2Proof.Machine
end

