-- ==== Sys2Proof/Laws/Exec.lean ====
section
/-! SUPPORT. What the meanings can do, said once: each instruction as its family's shared operation, one case lemma per
shared operation, and the shape of every next state. -/

namespace Sys2Proof.Machine

variable (s : State)

/-! ### Each instruction as its shared operation -/

@[simp] theorem exec_halt : exec .halt s = raise .HLT s := rfl
@[simp] theorem exec_nop : exec .nop s = .next (advance 1 s) := rfl
@[simp] theorem exec_rrmovl (a b : Reg) : exec (.rrmovl a b) s = moveIf .always a b s := rfl
@[simp] theorem exec_cmovle (a b : Reg) : exec (.cmovle a b) s = moveIf .le a b s := rfl
@[simp] theorem exec_cmovl (a b : Reg) : exec (.cmovl a b) s = moveIf .l a b s := rfl
@[simp] theorem exec_cmove (a b : Reg) : exec (.cmove a b) s = moveIf .e a b s := rfl
@[simp] theorem exec_cmovne (a b : Reg) : exec (.cmovne a b) s = moveIf .ne a b s := rfl
@[simp] theorem exec_cmovge (a b : Reg) : exec (.cmovge a b) s = moveIf .ge a b s := rfl
@[simp] theorem exec_cmovg (a b : Reg) : exec (.cmovg a b) s = moveIf .g a b s := rfl
@[simp] theorem exec_irmovl (b : Reg) (v : Word) : exec (.irmovl b v) s = .next (advance 6 (s.setReg b v)) := rfl
@[simp] theorem exec_rmmovl (a b : Reg) (v : Word) : exec (.rmmovl a b v) s = execRmmovl a b v s := rfl
@[simp] theorem exec_mrmovl (a b : Reg) (v : Word) : exec (.mrmovl a b v) s = execMrmovl a b v s := rfl
@[simp] theorem exec_addl (a b : Reg) : exec (.addl a b) s = aluReg .add a b s := rfl
@[simp] theorem exec_subl (a b : Reg) : exec (.subl a b) s = aluReg .sub a b s := rfl
@[simp] theorem exec_andl (a b : Reg) : exec (.andl a b) s = aluReg .and a b s := rfl
@[simp] theorem exec_xorl (a b : Reg) : exec (.xorl a b) s = aluReg .xor a b s := rfl
@[simp] theorem exec_jmp (d : Word) : exec (.jmp d) s = jumpIf .always d s := rfl
@[simp] theorem exec_jle (d : Word) : exec (.jle d) s = jumpIf .le d s := rfl
@[simp] theorem exec_jl (d : Word) : exec (.jl d) s = jumpIf .l d s := rfl
@[simp] theorem exec_je (d : Word) : exec (.je d) s = jumpIf .e d s := rfl
@[simp] theorem exec_jne (d : Word) : exec (.jne d) s = jumpIf .ne d s := rfl
@[simp] theorem exec_jge (d : Word) : exec (.jge d) s = jumpIf .ge d s := rfl
@[simp] theorem exec_jg (d : Word) : exec (.jg d) s = jumpIf .g d s := rfl
@[simp] theorem exec_call (d : Word) : exec (.call d) s = execCall d s := rfl
@[simp] theorem exec_ret : exec .ret s = execRet s := rfl
@[simp] theorem exec_pushl (a : Reg) : exec (.pushl a) s = execPushl a s := rfl
@[simp] theorem exec_popl (a : Reg) : exec (.popl a) s = execPopl a s := rfl
@[simp] theorem exec_iaddl (b : Reg) (v : Word) : exec (.iaddl b v) s = aluImm .add b v s := rfl
@[simp] theorem exec_isubl (b : Reg) (v : Word) : exec (.isubl b v) s = aluImm .sub b v s := rfl
@[simp] theorem exec_iandl (b : Reg) (v : Word) : exec (.iandl b v) s = aluImm .and b v s := rfl
@[simp] theorem exec_ixorl (b : Reg) (v : Word) : exec (.ixorl b v) s = aluImm .xor b v s := rfl

/-! ### One case lemma per shared operation -/

theorem raise_eq (st : Status) : raise st s = .next { s with status := st } := rfl

theorem moveIf_eq (c : CondCode) (a b : Reg) : moveIf c a b s =
    .next (advance 2 (s.setReg b (if condHolds c s.flags then s.reg a else s.reg b))) := by
  unfold moveIf
  cases condHolds c s.flags with
  | true => rfl
  | false =>
    have : s.setReg b (s.reg b) = s := by simp [State.setReg, State.reg]
    simp [this]

theorem aluReg_eq (op : AluOp) (a b : Reg) : aluReg op a b s = .next (advance 2 (alu op (s.reg a) b s)) := rfl

theorem aluImm_eq (op : AluOp) (b : Reg) (v : Word) : aluImm op b v s = .next (advance 6 (alu op v b s)) := rfl

/-- R191: a jump is not taken, or taken and its target good, or taken and its target bad. -/
theorem jumpIf_cases (c : CondCode) (d : Word) :
    (condHolds c s.flags = false ∧ jumpIf c d s = .next (advance 5 s)) ∨
    (condHolds c s.flags = true ∧ fetchOK s.memSize d.toInt = true ∧ jumpIf c d s = .next { s with pc := d }) ∨
    (condHolds c s.flags = true ∧ fetchOK s.memSize d.toInt = false ∧
      jumpIf c d s = .next { s with status := .ADR }) := by
  unfold jumpIf
  cases condHolds c s.flags with
  | false => simp
  | true => simpa using jumpTo_cases d s

theorem rmmovl_cases (a b : Reg) (v : Word) :
    (wordOK s.memSize (effectiveAddress s b v).toInt = true ∧
      execRmmovl a b v s = .next (advance 6 (s.setWord (effectiveAddress s b v).toNat (s.reg a)))) ∨
    (wordOK s.memSize (effectiveAddress s b v).toInt = false ∧ execRmmovl a b v s = .next { s with status := .ADR }) := by
  unfold execRmmovl raise
  cases wordOK s.memSize (effectiveAddress s b v).toInt <;> simp

theorem mrmovl_cases (a b : Reg) (v : Word) :
    (wordOK s.memSize (effectiveAddress s b v).toInt = true ∧
      execMrmovl a b v s = .next (advance 6 (s.setReg a (s.word (effectiveAddress s b v).toNat)))) ∨
    (wordOK s.memSize (effectiveAddress s b v).toInt = false ∧ execMrmovl a b v s = .next { s with status := .ADR }) := by
  unfold execMrmovl raise
  cases wordOK s.memSize (effectiveAddress s b v).toInt <;> simp

/-- The state a good push leaves (R210). -/
def pushed (v : Word) : State := (s.setReg .esp (s.reg .esp - 4)).setWord (s.reg .esp - 4).toNat v

theorem pushl_cases (a : Reg) :
    (pushOK s.memSize (s.reg .esp).toInt = true ∧ execPushl a s = .next (advance 2 (pushed s (s.reg a)))) ∨
    (pushOK s.memSize (s.reg .esp).toInt = false ∧ execPushl a s = .next { s with status := .ADR }) := by
  unfold execPushl push raise pushed
  cases pushOK s.memSize (s.reg .esp).toInt <;> simp

theorem popl_cases (a : Reg) :
    (popOK s.memSize (s.reg .esp).toInt = true ∧
      execPopl a s = .next (advance 2 ((s.setReg .esp (s.reg .esp + 4)).setReg a (s.word (s.reg .esp).toNat)))) ∨
    (popOK s.memSize (s.reg .esp).toInt = false ∧ execPopl a s = .next { s with status := .ADR }) := by
  unfold execPopl pop raise
  cases popOK s.memSize (s.reg .esp).toInt <;> simp

theorem call_cases (d : Word) :
    (fetchOK s.memSize d.toInt = true ∧ pushOK s.memSize (s.reg .esp).toInt = true ∧
      execCall d s = .next { pushed s (s.pc + 5) with pc := d }) ∨
    ((fetchOK s.memSize d.toInt = false ∨ pushOK s.memSize (s.reg .esp).toInt = false) ∧
      execCall d s = .next { s with status := .ADR }) := by
  unfold execCall push raise pushed
  cases fetchOK s.memSize d.toInt <;> cases pushOK s.memSize (s.reg .esp).toInt <;> simp

theorem ret_cases :
    (popOK s.memSize (s.reg .esp).toInt = true ∧ fetchOK s.memSize (s.word (s.reg .esp).toNat).toInt = true ∧
      execRet s = .next { s.setReg .esp (s.reg .esp + 4) with pc := s.word (s.reg .esp).toNat }) ∨
    ((popOK s.memSize (s.reg .esp).toInt = false ∨ fetchOK s.memSize (s.word (s.reg .esp).toNat).toInt = false) ∧
      execRet s = .next { s with status := .ADR }) := by
  unfold execRet pop raise
  cases popOK s.memSize (s.reg .esp).toInt with
  | false => simp
  | true => cases h : fetchOK s.memSize (s.word (s.reg .esp).toNat).toInt <;> simp [h]

/-! ### The shape of every next state -/

theorem jumpIf_shape {c : CondCode} {d : Word} {s t : State} (h : jumpIf c d s = .next t) :
    ∃ regs flags st pc mem, t = { s with regs := regs, flags := flags, status := st, pc := pc, mem := mem } := by
  rcases jumpIf_cases s c d with ⟨-, e⟩ | ⟨-, -, e⟩ | ⟨-, -, e⟩ <;> rw [e] at h <;> cases h <;>
    exact ⟨_, _, _, _, _, rfl⟩

/-- An instruction may write registers, flags, status, pc and memory; the step counter and the two parameters are out of
its reach (R36, R8, R9). -/
theorem exec_shape {i : Instr} {s t : State} (h : exec i s = .next t) :
    ∃ regs flags st pc mem, t = { s with regs := regs, flags := flags, status := st, pc := pc, mem := mem } := by
  cases i
  case rmmovl a b v =>
    rcases rmmovl_cases s a b v with ⟨-, e⟩ | ⟨-, e⟩ <;> rw [exec_rmmovl, e] at h <;> cases h <;>
      exact ⟨_, _, _, _, _, rfl⟩
  case mrmovl a b v =>
    rcases mrmovl_cases s a b v with ⟨-, e⟩ | ⟨-, e⟩ <;> rw [exec_mrmovl, e] at h <;> cases h <;>
      exact ⟨_, _, _, _, _, rfl⟩
  case pushl a =>
    rcases pushl_cases s a with ⟨-, e⟩ | ⟨-, e⟩ <;> rw [exec_pushl, e] at h <;> cases h <;>
      exact ⟨_, _, _, _, _, rfl⟩
  case popl a =>
    rcases popl_cases s a with ⟨-, e⟩ | ⟨-, e⟩ <;> rw [exec_popl, e] at h <;> cases h <;>
      exact ⟨_, _, _, _, _, rfl⟩
  case call d =>
    rcases call_cases s d with ⟨-, -, e⟩ | ⟨-, e⟩ <;> rw [exec_call, e] at h <;> cases h <;>
      exact ⟨_, _, _, _, _, rfl⟩
  case ret =>
    rcases ret_cases s with ⟨-, -, e⟩ | ⟨-, e⟩ <;> rw [exec_ret, e] at h <;> cases h <;>
      exact ⟨_, _, _, _, _, rfl⟩
  case jmp d | jle d | jl d | je d | jne d | jge d | jg d =>
    simp only [exec_jmp, exec_jle, exec_jl, exec_je, exec_jne, exec_jge, exec_jg] at h
    exact jumpIf_shape h
  case halt => cases h; exact ⟨_, _, _, _, _, rfl⟩
  case nop => cases h; exact ⟨_, _, _, _, _, rfl⟩
  case irmovl b v => cases h; exact ⟨_, _, _, _, _, rfl⟩
  case rrmovl a b | cmovle a b | cmovl a b | cmove a b | cmovne a b | cmovge a b | cmovg a b =>
    simp only [exec_rrmovl, exec_cmovle, exec_cmovl, exec_cmove, exec_cmovne, exec_cmovge, exec_cmovg, moveIf_eq] at h
    cases h
    exact ⟨_, _, _, _, _, rfl⟩
  case addl a b | subl a b | andl a b | xorl a b => cases h; exact ⟨_, _, _, _, _, rfl⟩
  case iaddl b v | isubl b v | iandl b v | ixorl b v => cases h; exact ⟨_, _, _, _, _, rfl⟩

end Sys2Proof.Machine
end

