-- ==== Sys2Proof/Laws/PerInstr.lean ====
section
/-! SUPPORT. One lemma per instruction for statements about every instruction: the length of an encoding follows from its
class nibble alone (R81, R82). -/

namespace Sys2Proof.Laws.EncodingLength

open Sys2Proof Sys2Proof.Machine

/-- R82's table: the length each class has; the classes 13 to 15 have none. -/
def lengthOfClass : Nat → Nat
  | 0 => 1
  | 1 => 1
  | 2 => 2
  | 3 => 6
  | 4 => 6
  | 5 => 6
  | 6 => 2
  | 7 => 5
  | 8 => 5
  | 9 => 1
  | 10 => 2
  | 11 => 2
  | 12 => 6
  | _ => 0

/-- The encoding is as long as the class nibble of its first byte says. -/
def Statement (i : Instr) : Prop :=
  ∃ b rest, encode i = b :: rest ∧ (encode i).length = lengthOfClass (highNibble b).toNat

theorem halt : Statement .halt := ⟨_, _, rfl, rfl⟩
theorem nop : Statement .nop := ⟨_, _, rfl, rfl⟩
theorem rrmovl (rA rB : Reg) : Statement (.rrmovl rA rB) := ⟨_, _, rfl, rfl⟩
theorem cmovle (rA rB : Reg) : Statement (.cmovle rA rB) := ⟨_, _, rfl, rfl⟩
theorem cmovl (rA rB : Reg) : Statement (.cmovl rA rB) := ⟨_, _, rfl, rfl⟩
theorem cmove (rA rB : Reg) : Statement (.cmove rA rB) := ⟨_, _, rfl, rfl⟩
theorem cmovne (rA rB : Reg) : Statement (.cmovne rA rB) := ⟨_, _, rfl, rfl⟩
theorem cmovge (rA rB : Reg) : Statement (.cmovge rA rB) := ⟨_, _, rfl, rfl⟩
theorem cmovg (rA rB : Reg) : Statement (.cmovg rA rB) := ⟨_, _, rfl, rfl⟩
theorem irmovl (rB : Reg) (val : Word) : Statement (.irmovl rB val) := ⟨_, _, rfl, rfl⟩
theorem rmmovl (rA rB : Reg) (val : Word) : Statement (.rmmovl rA rB val) := ⟨_, _, rfl, rfl⟩
theorem mrmovl (rA rB : Reg) (val : Word) : Statement (.mrmovl rA rB val) := ⟨_, _, rfl, rfl⟩
theorem addl (rA rB : Reg) : Statement (.addl rA rB) := ⟨_, _, rfl, rfl⟩
theorem subl (rA rB : Reg) : Statement (.subl rA rB) := ⟨_, _, rfl, rfl⟩
theorem andl (rA rB : Reg) : Statement (.andl rA rB) := ⟨_, _, rfl, rfl⟩
theorem xorl (rA rB : Reg) : Statement (.xorl rA rB) := ⟨_, _, rfl, rfl⟩
theorem jmp (dest : Word) : Statement (.jmp dest) := ⟨_, _, rfl, rfl⟩
theorem jle (dest : Word) : Statement (.jle dest) := ⟨_, _, rfl, rfl⟩
theorem jl (dest : Word) : Statement (.jl dest) := ⟨_, _, rfl, rfl⟩
theorem je (dest : Word) : Statement (.je dest) := ⟨_, _, rfl, rfl⟩
theorem jne (dest : Word) : Statement (.jne dest) := ⟨_, _, rfl, rfl⟩
theorem jge (dest : Word) : Statement (.jge dest) := ⟨_, _, rfl, rfl⟩
theorem jg (dest : Word) : Statement (.jg dest) := ⟨_, _, rfl, rfl⟩
theorem call (dest : Word) : Statement (.call dest) := ⟨_, _, rfl, rfl⟩
theorem ret : Statement .ret := ⟨_, _, rfl, rfl⟩
theorem pushl (rA : Reg) : Statement (.pushl rA) := ⟨_, _, rfl, rfl⟩
theorem popl (rA : Reg) : Statement (.popl rA) := ⟨_, _, rfl, rfl⟩
theorem iaddl (rB : Reg) (val : Word) : Statement (.iaddl rB val) := ⟨_, _, rfl, rfl⟩
theorem isubl (rB : Reg) (val : Word) : Statement (.isubl rB val) := ⟨_, _, rfl, rfl⟩
theorem iandl (rB : Reg) (val : Word) : Statement (.iandl rB val) := ⟨_, _, rfl, rfl⟩
theorem ixorl (rB : Reg) (val : Word) : Statement (.ixorl rB val) := ⟨_, _, rfl, rfl⟩

end Sys2Proof.Laws.EncodingLength
end

