-- ==== Sys2Proof/Tests/Slice0.lean ====
section
/-! SUPPORT. Tests.  Every expected value is the spec's: the window bytes and encodings of spec/30_encoding.md, and the
vectors of spec/95_test_vectors.md under the ids each docstring names.  The last part shows, for every obligation that has
hypotheses, a concrete state and operands that meet them all, at the boundary values of each clause. -/

namespace Sys2Proof.Tests

open Sys2Proof Sys2Proof.Machine

/-! ### Building a small machine and looking at it -/

/-- Reset machine of `size` bytes with these bytes at `pc`. -/
def machine (size pc : Nat) (code : List Byte) : State :=
  { State.resetWith size with pc := BitVec.ofNat 32 pc, mem := Memory.writeBytes [] pc code }

/-- The same with other flags. -/
def withFlags (zf sf of : Bool) (s : State) : State := { s with flags := ⟨zf, sf, of⟩ }

/-- The same with bytes somewhere else in memory. -/
def withBytes (a : Nat) (bs : List Byte) (s : State) : State := { s with mem := Memory.writeBytes s.mem a bs }

/-- What a vector's column "status, pc, step" says, and one register. -/
def shows (r : Reg) : Outcome → Option (Status × Nat × Nat × Word)
  | .next t => some (t.status, t.pc.toNat, t.stepCount, t.reg r)
  | .fault _ => none
  | .refused _ => none

/-- ZF, SF, OF of the next state. -/
def flagsOf : Outcome → Option (Bool × Bool × Bool)
  | .next t => some (t.flags.ZF, t.flags.SF, t.flags.OF)
  | .fault _ => none
  | .refused _ => none

/-- `n` bytes of the next state from an address on. -/
def bytesOf (a n : Nat) : Outcome → Option (List Byte)
  | .next t => some ((List.range n).map fun k => t.byte (a + k))
  | .fault _ => none
  | .refused _ => none

/-- Is the outcome exactly this next state? -/
def isNext (t : State) : Outcome → Bool
  | .next u => u == t
  | .fault _ => false
  | .refused _ => false

theorem eq_next_of_isNext {t : State} {o : Outcome} (h : isNext t o = true) : o = .next t := by
  cases o with
  | next u => exact congrArg _ (eq_of_beq h)
  | fault _ => cases h
  | refused _ => cases h

/-! ### Well-formedness refuses each kind of ill-formed encoding (R86, R87, R90) -/

theorem test_wf_accepts_irmovl : Fields.wellFormed ⟨3, 0, 0xF, 3, 0, 0⟩ = true := by decide
theorem test_wf_refuses_class_13 : Fields.wellFormed ⟨13, 0, 0, 0, 0, 0⟩ = false := by decide
theorem test_wf_refuses_function_1_of_halt : Fields.wellFormed ⟨0, 1, 0, 0, 0, 0⟩ = false := by decide
theorem test_wf_refuses_function_7_of_moves_and_jumps :
    Fields.wellFormed ⟨2, 7, 0, 1, 0, 0⟩ = false ∧ Fields.wellFormed ⟨7, 7, 0, 0, 0, 0⟩ = false := by decide
theorem test_wf_refuses_function_4_of_alu :
    Fields.wellFormed ⟨6, 4, 0, 0, 0, 0⟩ = false ∧ Fields.wellFormed ⟨12, 4, 0xF, 0, 0, 0⟩ = false := by decide
theorem test_wf_refuses_rA_that_is_no_register : Fields.wellFormed ⟨2, 0, 8, 0, 0, 0⟩ = false := by decide
theorem test_wf_refuses_rB_that_is_no_register : Fields.wellFormed ⟨2, 0, 0, 0xF, 0, 0⟩ = false := by decide
theorem test_wf_refuses_rA_that_is_not_none : Fields.wellFormed ⟨3, 0, 0, 0, 0, 0⟩ = false := by decide
theorem test_wf_refuses_rB_that_is_not_none : Fields.wellFormed ⟨10, 0, 0, 0, 0, 0⟩ = false := by decide
theorem test_wf_ignores_register_fields_of_jumps : Fields.wellFormed ⟨7, 4, 0, 0xC, 0, 0⟩ = true := by decide

/-! ### Decoding: one word per constructor, written out from R80, R81 and R89 -/

theorem test_decode_class_0_1 :
    decode ⟨0x00, 0xAA, 0xBB, 0xCC, 0xDD, 0xEE⟩ = .ok .halt ∧ decode ⟨0x10, 0xFF, 0, 0, 0, 0⟩ = .ok .nop := by decide
theorem test_decode_class_2 :
    decode ⟨0x20, 0x03, 0, 0, 0, 0⟩ = .ok (.rrmovl .eax .ebx) ∧
    decode ⟨0x21, 0x12, 0, 0, 0, 0⟩ = .ok (.cmovle .ecx .edx) ∧
    decode ⟨0x22, 0x24, 0, 0, 0, 0⟩ = .ok (.cmovl .edx .esi) ∧
    decode ⟨0x23, 0x07, 0, 0, 0, 0⟩ = .ok (.cmove .eax .ebp) ∧
    decode ⟨0x24, 0x05, 0, 0, 0, 0⟩ = .ok (.cmovne .eax .edi) ∧
    decode ⟨0x25, 0x61, 0, 0, 0, 0⟩ = .ok (.cmovge .esp .ecx) ∧
    decode ⟨0x26, 0x70, 0, 0, 0, 0⟩ = .ok (.cmovg .ebp .eax) := by decide
/-- The decode vectors of section 2.1 for the classes 3 to 5. -/
theorem test_decode_class_3_4_5 :
    decode ⟨0x30, 0xF3, 0x78, 0x56, 0x34, 0x12⟩ = .ok (.irmovl .ebx 0x12345678) ∧
    decode ⟨0x40, 0x12, 0x04, 0x00, 0x00, 0x00⟩ = .ok (.rmmovl .ecx .edx 4) ∧
    decode ⟨0x50, 0x42, 0xFC, 0xFF, 0xFF, 0xFF⟩ = .ok (.mrmovl .esi .edx 0xFFFFFFFC) := by decide
theorem test_decode_class_6 :
    decode ⟨0x60, 0x01, 0, 0, 0, 0⟩ = .ok (.addl .eax .ecx) ∧
    decode ⟨0x61, 0x10, 0, 0, 0, 0⟩ = .ok (.subl .ecx .eax) ∧
    decode ⟨0x62, 0x44, 0, 0, 0, 0⟩ = .ok (.andl .esi .esi) ∧
    decode ⟨0x63, 0x77, 0, 0, 0, 0⟩ = .ok (.xorl .ebp .ebp) := by decide
theorem test_decode_class_7 :
    decode ⟨0x70, 0x20, 0x00, 0x00, 0x00, 0xFF⟩ = .ok (.jmp 0x20) ∧
    decode ⟨0x71, 0x44, 0x33, 0x22, 0x11, 0x00⟩ = .ok (.jle 0x11223344) ∧
    decode ⟨0x72, 0x20, 0, 0, 0, 0⟩ = .ok (.jl 0x20) ∧ decode ⟨0x73, 0xFF, 0xFF, 0xFF, 0xFF, 0⟩ = .ok (.je 0xFFFFFFFF) ∧
    decode ⟨0x74, 0x0C, 0, 0, 0, 0⟩ = .ok (.jne 0x0C) ∧ decode ⟨0x75, 0, 0x01, 0, 0, 0⟩ = .ok (.jge 0x100) ∧
    decode ⟨0x76, 0, 0, 0, 0x80, 0⟩ = .ok (.jg 0x80000000) := by decide
theorem test_decode_class_8_to_11 :
    decode ⟨0x80, 0x20, 0x00, 0x00, 0x00, 0x90⟩ = .ok (.call 0x20) ∧
    decode ⟨0x90, 0xFF, 0, 0, 0, 0⟩ = .ok .ret ∧
    decode ⟨0xA0, 0x6F, 0, 0, 0, 0⟩ = .ok (.pushl .esp) ∧ decode ⟨0xB0, 0x1F, 0, 0, 0, 0⟩ = .ok (.popl .ecx) := by decide
theorem test_decode_class_12 :
    decode ⟨0xC0, 0xF0, 0xFF, 0xFF, 0xFF, 0xFF⟩ = .ok (.iaddl .eax 0xFFFFFFFF) ∧
    decode ⟨0xC1, 0xF1, 0x01, 0x00, 0x00, 0x00⟩ = .ok (.isubl .ecx 1) ∧
    decode ⟨0xC2, 0xF2, 0xFF, 0x00, 0x00, 0x00⟩ = .ok (.iandl .edx 0xFF) ∧
    decode ⟨0xC3, 0xF7, 0x00, 0x00, 0x00, 0x80⟩ = .ok (.ixorl .ebp 0x80000000) := by decide
/-- V-I1, V-I4, V-I6, V-I8, V-I11, V-I12, V-I19, V-I27, V-I34: rejected by name. -/
theorem test_decode_rejects_by_name :
    decode ⟨0xD0, 0, 0, 0, 0, 0⟩ = .error (.unknownClass 13) ∧ decode ⟨0x01, 0, 0, 0, 0, 0⟩ = .error (.unknownFunction 0 1) ∧
    decode ⟨0x27, 0x01, 0, 0, 0, 0⟩ = .error (.unknownFunction 2 7) ∧
    decode ⟨0x20, 0x0F, 0, 0, 0, 0⟩ = .error (.registerRequired 2) ∧
    decode ⟨0x30, 0x00, 0, 0, 0, 0⟩ = .error (.noneRequired 3) ∧ decode ⟨0x30, 0xFF, 0, 0, 0, 0⟩ = .error (.registerRequired 3) ∧
    decode ⟨0x64, 0, 0, 0, 0, 0⟩ = .error (.unknownFunction 6 4) ∧ decode ⟨0xA0, 0, 0, 0, 0, 0⟩ = .error (.noneRequired 10) ∧
    decode ⟨0xC0, 0, 0x01, 0, 0, 0⟩ = .error (.noneRequired 12) := by decide
/-- The other vectors of section 2.3, opcode byte and register byte. -/
theorem test_decode_rejects_classes_0_to_5 :
    ([(0xE0, 0x00), (0xF0, 0x00), (0x1F, 0x00), (0x20, 0x80), (0x23, 0x08), (0x31, 0xF0), (0x30, 0xF8), (0x41, 0x03),
      (0x40, 0x80), (0x40, 0x0F), (0x51, 0x03), (0x50, 0xF3)] : List (Byte × Byte)).all
      (fun p => (decode ⟨p.1, p.2, 0, 0, 0, 0⟩).toOption.isNone) = true := by decide
theorem test_decode_rejects_classes_6_to_12 :
    ([(0x60, 0xF0), (0x61, 0x09), (0x77, 0x00), (0x7F, 0x00), (0x81, 0xFF), (0x91, 0x00), (0xA1, 0x0F), (0xA0, 0xFF),
      (0xA0, 0x8F), (0xB1, 0x0F), (0xB0, 0x00), (0xB0, 0xFF), (0xC4, 0xF0), (0xC0, 0xFF), (0xC3, 0xFA)] :
      List (Byte × Byte)).all (fun p => (decode ⟨p.1, p.2, 0, 0, 0, 0⟩).toOption.isNone) = true := by decide

/-- The bytes of P4's listing, address 12 on. -/
theorem test_encode_listing :
    encode (.rmmovl .eax .edx 4) ++ encode (.mrmovl .ecx .edx 5) ++ encode (.andl .esi .esi) =
      [0x40, 0x02, 0x04, 0x00, 0x00, 0x00, 0x50, 0x12, 0x05, 0x00, 0x00, 0x00, 0x62, 0x44] := by decide

/-- Rows of spec/opcode_table.json: match 0x6000 with rA = 0, rB = 1; match 0xA00F with rA = 0; match 0x30F0 with rB = 0. -/
theorem test_table_words :
    decodeTableWord 16 0x6001 = some (.addl .eax .ecx) ∧ decodeTableWord 16 0xA00F = some (.pushl .eax) ∧
    decodeTableWord 16 0x30F0 = some (.irmovl .eax 0) ∧ decodeTableWord 16 0xD000 = none := by decide
/-- A table word placed after reset is the first instruction that runs. -/
theorem test_withFetchWord_runs_the_word :
    shows .eax (step (State.reset.withFetchWord 16 0x1000)) = some (.AOK, 1, 1, 0) := by decide
/-- A stopped machine is given a new run entry first. -/
theorem test_withFetchWord_after_a_stop :
    shows .eax (step (State.withFetchWord { State.reset with status := .HLT, pc := 7 } 16 0x1000)) =
      some (.AOK, 1, 1, 0) := by decide

/-! ### Codec (S1, S2) -/

theorem test_codec : encodeLE 0x12345678 = [0x78, 0x56, 0x34, 0x12] ∧ encodeBE 0x12345678 = [0x12, 0x34, 0x56, 0x78] ∧
    decodeBE 0x78 0x56 0x34 0x12 = 0x78563412 := by decide
theorem test_sign_bit : signBit 0x7FFFFFFF = false ∧ signBit 0x80000000 = true ∧ signBit 0 = false ∧
    signBit 0xFFFFFFFF = true := by decide

/-! ### The ALU function and the condition table, as functions -/

/-- V-A3, V-A4, V-A5, V-A7: add, the overflow flag as the spec has it. -/
theorem test_alu_add :
    aluFlags .add 0x7FFFFFFF 1 = ⟨false, true, false⟩ ∧ aluFlags .add 0xFFFFFFFF 1 = ⟨true, false, true⟩ ∧
    aluFlags .add 0x80000000 0x80000000 = ⟨true, false, true⟩ ∧ aluFlags .add 1 0xFFFFFFFF = ⟨true, false, false⟩ := by
  decide
/-- V-A13, V-A15, V-A17, V-A19: subtract. -/
theorem test_alu_sub :
    aluFlags .sub 3 5 = ⟨false, true, true⟩ ∧ aluFlags .sub 0x80000000 1 = ⟨false, false, false⟩ ∧
    aluFlags .sub 0 0x80000000 = ⟨false, true, true⟩ ∧ aluFlags .sub 0xFFFFFFFB 0xFFFFFFFE = ⟨false, true, false⟩ := by
  decide
/-- S4: the 56 values of the condition table, a row (ZF, SF, OF) at a time, codes 0 to 6. -/
theorem test_condition_table :
    (List.map (fun f : Flags => [CondCode.always, .le, .l, .e, .ne, .ge, .g].map (condHolds · f))
      [⟨false, false, false⟩, ⟨false, false, true⟩, ⟨false, true, false⟩, ⟨false, true, true⟩, ⟨true, false, false⟩,
       ⟨true, false, true⟩, ⟨true, true, false⟩, ⟨true, true, true⟩]) =
    [[true, false, false, false, true, true, true], [true, true, true, false, true, false, false],
     [true, true, true, false, true, false, false], [true, false, false, false, true, true, true],
     [true, true, false, true, false, true, false], [true, true, true, true, false, true, false],
     [true, true, true, true, false, true, false], [true, true, false, true, false, true, false]] := by decide

/-! ### halt, nop and the fetch check (section 2.2) -/

/-- V-F1, V-F6. -/
theorem test_halt : shows .ebx (step (machine 12 6 [0x00])) = some (.HLT, 6, 1, 0) ∧
    flagsOf (step (withFlags false true false (machine 32 0 [0x00, 0xFF]))) = some (false, true, false) := by decide
/-- V-F2: at MEMSIZE - 5 the fetch check fails, uncounted. -/
theorem test_fetch_check : shows .eax (step (machine 12 7 [0x00])) = some (.ADR, 7, 0, 0) := by decide
/-- V-F3, V-F5. -/
theorem test_nop : shows .eax (step (machine 12 6 [0x10])) = some (.AOK, 7, 1, 0) ∧
    flagsOf (step (withFlags true false true (machine 32 3 [0x10]))) = some (true, false, true) := by decide
/-- V-I1, V-I14: INS, counted, before any address check. -/
theorem test_invalid : shows .eax (step (machine 32 0 [0xD0])) = some (.INS, 0, 1, 0) ∧
    shows .eax (step (machine 32 0 [0x41, 0x03, 0xFF, 0xFF, 0xFF, 0xFF])) = some (.INS, 0, 1, 0) := by decide

/-! ### Moves (section 2.4) -/

/-- eax 9, ecx 1, the move's bytes at 0. -/
def moveMachine (zf sf of : Bool) (opcode : Byte) : State :=
  withFlags zf sf of (((machine 32 0 [opcode, 0x01]).setReg .eax 9).setReg .ecx 1)

/-- V-M1. -/
theorem test_rrmovl : shows .ebx (step (withFlags true true true (((machine 32 0 [0x20, 0x03]).setReg .eax 0x12345678).setReg
    .ebx 0xFFFFFFFF))) = some (.AOK, 2, 1, 0x12345678) := by decide
/-- V-M2, V-M3. -/
theorem test_cmovle : shows .ecx (step (moveMachine true false false 0x21)) = some (.AOK, 2, 1, 9) ∧
    shows .ecx (step (moveMachine false false false 0x21)) = some (.AOK, 2, 1, 1) := by decide
/-- V-M4, V-M5. -/
theorem test_cmovl : shows .ecx (step (moveMachine false true false 0x22)) = some (.AOK, 2, 1, 9) ∧
    shows .ecx (step (moveMachine false true true 0x22)) = some (.AOK, 2, 1, 1) := by decide
/-- V-M6, V-M7. -/
theorem test_cmove : shows .ecx (step (moveMachine true false false 0x23)) = some (.AOK, 2, 1, 9) ∧
    shows .ecx (step (moveMachine false true false 0x23)) = some (.AOK, 2, 1, 1) := by decide
/-- V-M8, V-M9. -/
theorem test_cmovne : shows .ecx (step (moveMachine false false false 0x24)) = some (.AOK, 2, 1, 9) ∧
    shows .ecx (step (moveMachine true false false 0x24)) = some (.AOK, 2, 1, 1) := by decide
/-- V-M10, V-M11. -/
theorem test_cmovge : shows .ecx (step (moveMachine false true true 0x25)) = some (.AOK, 2, 1, 9) ∧
    shows .ecx (step (moveMachine false true false 0x25)) = some (.AOK, 2, 1, 1) := by decide
/-- V-M12, V-M14. -/
theorem test_cmovg : shows .ecx (step (moveMachine false false false 0x26)) = some (.AOK, 2, 1, 9) ∧
    shows .ecx (step (moveMachine false false true 0x26)) = some (.AOK, 2, 1, 1) := by decide
/-- V-M16, V-M17. -/
theorem test_irmovl : shows .esp (step (machine 32 0 [0x30, 0xF6, 0xFF, 0xFF, 0xFF, 0xFF])) = some (.AOK, 6, 1, 0xFFFFFFFF) ∧
    shows .ebp (step (machine 32 8 [0x30, 0xF7, 0x00, 0x00, 0x00, 0x80])) = some (.AOK, 14, 1, 0x80000000) := by decide

/-! ### Arithmetic (section 2.5) -/

/-- V-A31: all three flags rewritten. -/
theorem test_addl :
    let o := step (withFlags true true true (((machine 32 0 [0x60, 0x01]).setReg .eax 5).setReg .ecx 3))
    shows .ecx o = some (.AOK, 2, 1, 8) ∧ flagsOf o = some (false, false, false) := by decide
/-- V-A32: ecx = 3 - 5. -/
theorem test_subl :
    let o := step (((machine 32 0 [0x61, 0x01]).setReg .eax 5).setReg .ecx 3)
    shows .ecx o = some (.AOK, 2, 1, 0xFFFFFFFE) ∧ flagsOf o = some (false, true, true) := by decide
/-- V-A33: one register as both operands. -/
theorem test_subl_same_register :
    let o := step ((machine 32 0 [0x61, 0x00]).setReg .eax 0x1234)
    shows .eax o = some (.AOK, 2, 1, 0) ∧ flagsOf o = some (true, false, false) := by decide
/-- V-A35. -/
theorem test_andl :
    let o := step (withFlags false false true (((machine 32 0 [0x62, 0x23]).setReg .edx 0x0FF00FF0).setReg .ebx 0xF0F0F0F0))
    shows .ebx o = some (.AOK, 2, 1, 0x00F000F0) ∧ flagsOf o = some (false, false, false) := by decide
/-- V-A36. -/
theorem test_xorl :
    let o := step ((machine 32 0 [0x63, 0x77]).setReg .ebp 0xDEADBEEF)
    shows .ebp o = some (.AOK, 2, 1, 0) ∧ flagsOf o = some (true, false, false) := by decide
/-- V-A37: 1 + -1, no overflow flag. -/
theorem test_iaddl :
    let o := step ((machine 32 0 [0xC0, 0xF0, 0xFF, 0xFF, 0xFF, 0xFF]).setReg .eax 1)
    shows .eax o = some (.AOK, 6, 1, 0) ∧ flagsOf o = some (true, false, false) := by decide
/-- V-A39: 0 - 1, overflow flag. -/
theorem test_isubl :
    let o := step (machine 32 0 [0xC1, 0xF1, 0x01, 0x00, 0x00, 0x00])
    shows .ecx o = some (.AOK, 6, 1, 0xFFFFFFFF) ∧ flagsOf o = some (false, true, true) := by decide
/-- V-A40. -/
theorem test_iandl : shows .edx (step ((machine 32 0 [0xC2, 0xF2, 0xFF, 0x00, 0x00, 0x00]).setReg .edx 0x12345678)) =
    some (.AOK, 6, 1, 0x78) := by decide
/-- V-A41. -/
theorem test_ixorl :
    let o := step ((machine 32 0 [0xC3, 0xF2, 0xFF, 0xFF, 0xFF, 0xFF]).setReg .edx 0x7FFFFFFF)
    shows .edx o = some (.AOK, 6, 1, 0x80000000) ∧ flagsOf o = some (false, true, false) := by decide

/-! ### Loads and stores (section 2.6) -/

/-- V-L3, V-L9: the last word of memory, and an unaligned store. -/
theorem test_rmmovl :
    bytesOf 0x1C 4 (step ((machine 32 0 [0x40, 0x03, 0x1C, 0, 0, 0]).setReg .eax 0xDEADBEEF)) =
      some [0xEF, 0xBE, 0xAD, 0xDE] ∧
    bytesOf 0x10 6 (step ((machine 32 0 [0x40, 0x03, 0x11, 0, 0, 0]).setReg .eax 0x04030201)) =
      some [0x00, 0x01, 0x02, 0x03, 0x04, 0x00] := by decide
/-- V-L4: one byte further nothing is stored. -/
theorem test_rmmovl_outside :
    let o := step ((machine 32 0 [0x40, 0x03, 0x1D, 0, 0, 0]).setReg .eax 0xDEADBEEF)
    shows .eax o = some (.ADR, 0, 1, 0xDEADBEEF) ∧ bytesOf 0x1C 4 o = some [0, 0, 0, 0] := by decide
/-- V-L8, V-L10: the wrapping address, and base and destination one register. -/
theorem test_mrmovl :
    shows .eax (step ((machine 32 0 [0x50, 0x03, 0x00, 0x00, 0x00, 0x80]).setReg .ebx 0x80000000)) =
      some (.AOK, 6, 1, 0x350) ∧
    shows .esp (step (withBytes 0x14 [0x44, 0x33, 0x22, 0x11] ((machine 32 0 [0x50, 0x66, 0x10, 0, 0, 0]).setReg .esp 4))) =
      some (.AOK, 6, 1, 0x11223344) := by decide
/-- V-L5, V-L7. -/
theorem test_mrmovl_outside :
    shows .eax (step (machine 32 0 [0x50, 0x03, 0xFF, 0xFF, 0xFF, 0xFF])) = some (.ADR, 0, 1, 0) ∧
    shows .eax (step (machine 32 0 [0x50, 0x03, 0x20, 0x00, 0x00, 0x00])) = some (.ADR, 0, 1, 0) := by decide

/-! ### Jumps (section 2.7) -/

/-- A jump to 0x20 at address 0. -/
def jumpMachine (zf sf of : Bool) (opcode : Byte) : State := withFlags zf sf of (machine 64 0 [opcode, 0x20])

/-- V-J1, V-J2, V-J3. -/
theorem test_jmp : shows .eax (step (machine 32 0 [0x70, 0x1A])) = some (.AOK, 0x1A, 1, 0) ∧
    shows .eax (step (machine 32 0 [0x70, 0x1B])) = some (.ADR, 0, 1, 0) ∧
    shows .eax (step (machine 32 0 [0x70, 0, 0, 0, 0x80])) = some (.ADR, 0, 1, 0) := by decide
/-- V-J5, V-J6. -/
theorem test_jle : shows .eax (step (jumpMachine false true false 0x71)) = some (.AOK, 0x20, 1, 0) ∧
    shows .eax (step (jumpMachine false true true 0x71)) = some (.AOK, 5, 1, 0) := by decide
/-- V-J7, V-J8. -/
theorem test_jl : shows .eax (step (jumpMachine false false true 0x72)) = some (.AOK, 0x20, 1, 0) ∧
    shows .eax (step (jumpMachine true false false 0x72)) = some (.AOK, 5, 1, 0) := by decide
/-- V-J9, V-J10: untaken, a bad target is not looked at. -/
theorem test_je : shows .eax (step (jumpMachine true false false 0x73)) = some (.AOK, 0x20, 1, 0) ∧
    shows .eax (step (machine 32 0 [0x73, 0xFF, 0xFF, 0xFF, 0xFF])) = some (.AOK, 5, 1, 0) := by decide
/-- V-J11, V-J12. -/
theorem test_jne : shows .eax (step (machine 32 0 [0x74, 0xFF, 0xFF, 0xFF, 0xFF])) = some (.ADR, 0, 1, 0) ∧
    shows .eax (step (withFlags true false false (machine 64 0x14 [0x74, 0x0C]))) = some (.AOK, 0x19, 1, 0) := by decide
/-- V-J13, V-J14. -/
theorem test_jge : shows .eax (step (jumpMachine false false false 0x75)) = some (.AOK, 0x20, 1, 0) ∧
    shows .eax (step (jumpMachine false true false 0x75)) = some (.AOK, 5, 1, 0) := by decide
/-- V-J16, V-J17. -/
theorem test_jg : shows .eax (step (jumpMachine false true true 0x76)) = some (.AOK, 0x20, 1, 0) ∧
    shows .eax (step (jumpMachine true false false 0x76)) = some (.AOK, 5, 1, 0) := by decide

/-! ### Call, return and the stack (sections 2.8, 2.9) -/

/-- V-C1. -/
theorem test_call :
    let o := step ((machine 128 0xC [0x80, 0x20]).setReg .esp 0x40)
    shows .esp o = some (.AOK, 0x20, 1, 0x3C) ∧ bytesOf 0x3C 4 o = some [0x11, 0, 0, 0] := by decide
/-- V-C2: a bad target pushes nothing. -/
theorem test_call_bad_target :
    let o := step ((machine 64 6 [0x80, 0xFF]).setReg .esp 0x20)
    shows .esp o = some (.ADR, 6, 1, 0x20) ∧ bytesOf 0x1C 4 o = some [0, 0, 0, 0] := by decide
/-- V-C5. -/
theorem test_ret : shows .esp (step (withBytes 0x3C [0x11] ((machine 128 0x2C [0x90]).setReg .esp 0x3C))) =
    some (.AOK, 0x11, 1, 0x40) := by decide
/-- V-C6, V-C7: a bad popped target leaves esp; a pop at MEMSIZE - 4 fails. -/
theorem test_ret_stops :
    shows .esp (step (withBytes 0x20 [0x00, 0x10] ((machine 64 6 [0x90]).setReg .esp 0x20))) = some (.ADR, 6, 1, 0x20) ∧
    shows .esp (step ((machine 64 6 [0x90]).setReg .esp 0x3C)) = some (.ADR, 6, 1, 0x3C) := by decide
/-- V-S6: pushl %esp stores the old esp. -/
theorem test_pushl :
    let o := step ((machine 32 0 [0xA0, 0x6F]).setReg .esp 0x10)
    shows .esp o = some (.AOK, 2, 1, 0xC) ∧ bytesOf 0xC 4 o = some [0x10, 0, 0, 0] := by decide
/-- V-S2, V-S3, V-S4, V-S5: the bound of a push on both sides. -/
theorem test_pushl_bound :
    ([4, 3, 0x1F, 0x20].map fun e => shows .esp (step ((machine 32 8 [0xA0, 0x0F]).setReg .esp e))) =
      [some (.AOK, 0xA, 1, 0), some (.ADR, 8, 1, 3), some (.AOK, 0xA, 1, 0x1B), some (.ADR, 8, 1, 0x20)] := by decide
/-- V-S7, V-S12: popl %ecx, and popl %esp leaving the loaded word. -/
theorem test_popl :
    shows .ecx (step (withBytes 0x38 [0x07] ((machine 64 0 [0xB0, 0x1F]).setReg .esp 0x38))) = some (.AOK, 2, 1, 7) ∧
    shows .esp (step (withBytes 0x10 [0x14] ((machine 32 0 [0xB0, 0x6F]).setReg .esp 0x10))) = some (.AOK, 2, 1, 0x14) := by
  decide
/-- V-S8, V-S9, V-S10: the bound of a pop. -/
theorem test_popl_bound :
    ([0x1B, 0x1C, 0xFFFFFFFC].map fun e => shows .esp (step ((machine 32 8 [0xB0, 0x0F]).setReg .esp e))) =
      [some (.AOK, 0xA, 1, 0x1F), some (.ADR, 8, 1, 0x1C), some (.ADR, 8, 1, 0xFFFFFFFC)] := by decide

/-! ### Reset and the outside -/

/-- R261, R265, V-F8. -/
theorem test_empty_machine : shows .eax (step State.reset) = some (.HLT, 0, 1, 0) ∧
    shows .eax (step (State.resetWith 5)) = some (.ADR, 0, 0, 0) := by decide
/-- R69: a buffer that fits is loaded; one byte more is refused. -/
theorem test_load : (load 3 [1, 0, 2] (State.resetWith 6)).map (·.mem) = some [(3, 1), (5, 2)] ∧
    load 4 [1, 0, 2] (State.resetWith 6) = none := by decide
/-- R44: the accessors. -/
theorem test_accessors : readName (State.reset.setReg .esp 9) "esp" = some 9 ∧ readName State.reset "eip" = none ∧
    readByte State.reset 1023 = some 0 ∧ readByte State.reset 1024 = none ∧ Status.text .INS = "INS" ∧
    Status.bits .INS = 3 := by decide

/-! ### Witnesses: the hypotheses of each obligation are met somewhere -/

/-- A machine of 32 bytes that holds `code` at `pc` and is ready to run it. -/
theorem ready_machine : Ready (machine 32 0 [0xD0]) ∧ Ready (machine 32 26 [0x10]) ∧ Ready (State.resetWith 6) := by
  unfold Ready
  decide

theorem machine_inv : StateInv (machine 32 26 [0x10]) :=
  ⟨by decide, by decide, by decide, by decide, fun _ h => nomatch h⟩

theorem witness_DecodedWindowReencodesToItsOwnBytes : decode ⟨0x20, 0x03, 0xFF, 0, 0, 0⟩ = .ok (.rrmovl .eax .ebx) := by
  decide

theorem witness_OneTableRowSelectsEachDecodedInstruction :
    decode ⟨0x60, 0x77, 0, 0, 0, 0⟩ = .ok (.addl .ebp .ebp) ∧ ∃ row ∈ opcodeTable, row.mnemonic = "addl" := by decide

theorem witness_IllegalEncodingsAndOnlyTheyEndInINS :
    Ready (machine 32 0 [0xD0]) ∧ IllegalEncoding 0xD0 0x00 ∧ IllegalEncoding 0xCF 0xF0 ∧
    IllegalEncoding 0x01 0x00 ∧ IllegalEncoding 0x27 0x00 ∧ ¬ IllegalEncoding 0x26 0x77 ∧ IllegalEncoding 0x64 0x00 ∧
    ¬ IllegalEncoding 0x63 0x77 ∧ IllegalEncoding 0x20 0x80 ∧ IllegalEncoding 0x30 0xE0 ∧ ¬ IllegalEncoding 0x30 0xF7 ∧
    IllegalEncoding 0xA0 0x7E ∧ ¬ IllegalEncoding 0xA0 0x7F := by
  refine ⟨ready_machine.1, ?_⟩
  unfold IllegalEncoding
  simp

/-- At the first and at the last fetchable address. -/
theorem witness_StepRunsTheDecodedInstruction :
    (machine 32 0 [0x10]).status = .AOK ∧ (machine 32 0 [0x10]).maxSteps = none ∧
    0 ≤ (machine 32 0 [0x10]).pc.toInt ∧ (machine 32 26 [0x10]).pc.toInt ≤ (32 : Int) - 6 ∧
    decode (windowAt (machine 32 0 [0x10]) 0) = .ok .nop ∧ decode (windowAt (machine 32 26 [0x10]) 26) = .ok .nop := by decide

theorem witness_UnfetchablePcEndsInADRUncounted :
    ({ State.reset with pc := 0xFFFFFFFF } : State).pc.toInt < 0 ∧ (32 : Int) - 5 ≤ (machine 32 27 [0x10]).pc.toInt ∧
    (machine 32 27 [0x10]).status = .AOK ∧ (machine 32 27 [0x10]).maxSteps = none := by decide

theorem witness_StoppedMachineStepsOnlyAfterANewRunEntry :
    ({ State.reset with status := .HLT } : State).status ≠ .AOK ∧ ({ State.reset with status := .ADR } : State).status ≠ .AOK ∧
    ({ State.reset with status := .INS } : State).status ≠ .AOK := by decide

/-- Budget 3 at step 3 (used up) and at step 2 (one left). -/
theorem witness_StepBudgetStopsTheRunAndNothingElse :
    (runEntry (some 3) State.reset).status = .AOK ∧
    ({ runEntry (some 3) State.reset with stepCount := 3 } : State).limitReached = true ∧
    ({ runEntry (some 3) State.reset with stepCount := 2 } : State).limitReached = false := by decide

theorem witness_StepCounterCountsDecodedInstructions :
    step (machine 12 6 [0x10]) = .next { machine 12 6 [0x10] with pc := 7, stepCount := 1 } ∧
    step (machine 12 7 [0x10]) = .next { machine 12 7 [0x10] with status := .ADR } :=
  ⟨eq_next_of_isNext (by decide), eq_next_of_isNext (by decide)⟩

/-- One step into each terminal status; the premises of the statements about a step that ends the run. -/
theorem witness_TerminalStatusIsRaisedWithoutPartialEffects :
    step (machine 12 6 [0x00]) = .next { machine 12 6 [0x00] with status := .HLT, stepCount := 1 } ∧
    step (machine 12 7 [0x00]) = .next { machine 12 7 [0x00] with status := .ADR } ∧
    step (machine 32 0 [0xD0]) = .next { machine 32 0 [0xD0] with status := .INS, stepCount := 1 } :=
  ⟨eq_next_of_isNext (by decide), eq_next_of_isNext (by decide), eq_next_of_isNext (by decide)⟩

theorem witness_HLTIsRaisedByHaltAlone :
    (machine 12 6 [0x00]).status = .AOK ∧ (machine 12 6 [0x00]).limitReached = false ∧
    (machine 12 6 [0x00]).canFetch = true ∧ (fetchWindow (machine 12 6 [0x00])).b0 = 0x00#8 ∧
    (fetchWindow (machine 12 6 [0x10])).b0 ≠ 0x00#8 := by decide

/-- The fetch condition on both sides, and an instruction whose address condition holds. -/
theorem witness_ADRHasExactlyTheListedCauses :
    (machine 32 0 [0x70, 0x1B]).status = .AOK ∧ (machine 32 0 [0x70, 0x1B]).limitReached = false ∧
    decode (fetchWindow (machine 32 0 [0x70, 0x1B])) = .ok (.jmp 0x1B) ∧
    AddressCause (machine 32 0 [0x70, 0x1B]) (.jmp 0x1B) ∧ ¬ AddressCause (machine 32 0 [0x70, 0x1B]) (.jmp 0x1A) := by
  unfold AddressCause BadTarget
  decide

theorem witness_RunningMachineAlwaysHasASuccessor :
    (State.resetWith 1).status = .AOK ∧ (State.resetWith 1).limitReached = false := by decide

theorem witness_NoStepChangesTheParameters :
    step (runEntry (some 1) (machine 32 0 [0x10])) =
      .next { machine 32 0 [0x10] with pc := 1, stepCount := 1, maxSteps := some 1 } := eq_next_of_isNext (by decide)

/-- A step at the last fetchable address of a machine that satisfies the invariant. -/
theorem witness_StepKeepsInvariant :
    StateInv (machine 32 26 [0x10]) ∧
    step (machine 32 26 [0x10]) = .next { machine 32 26 [0x10] with pc := 27, stepCount := 1 } :=
  ⟨machine_inv, eq_next_of_isNext (by decide)⟩

theorem witness_ResetSatisfiesInvariant :
    Config.LegalMemSize 1 ∧ Config.LegalMemSize (2 ^ 31 - 1) ∧ ¬ Config.LegalMemSize 0 ∧ ¬ Config.LegalMemSize (2 ^ 31) := by
  decide

/-- A buffer that ends with memory. -/
theorem witness_OutsideMovesKeepInvariant : StateInv (machine 32 26 [0x10]) ∧
    (load 30 [1, 2] (machine 32 26 [0x10])).isSome = true := ⟨machine_inv, by decide⟩

/-- A run that ends in each way. -/
theorem witness_EndedRunPointsAtItsCause :
    RunEnds (machine 12 6 [0x00]) { machine 12 6 [0x00] with status := .HLT, stepCount := 1 } ∧
    RunEnds (machine 12 7 [0x00]) { machine 12 7 [0x00] with status := .ADR } ∧
    RunEnds (machine 32 0 [0xD0]) { machine 32 0 [0xD0] with status := .INS, stepCount := 1 } ∧
    RunEnds (machine 32 0 [0x70, 0x1B]) { machine 32 0 [0x70, 0x1B] with status := .ADR, stepCount := 1 } :=
  ⟨⟨.tail .refl (eq_next_of_isNext (by decide)), by decide⟩, ⟨.tail .refl (eq_next_of_isNext (by decide)), by decide⟩,
    ⟨.tail .refl (eq_next_of_isNext (by decide)), by decide⟩, ⟨.tail .refl (eq_next_of_isNext (by decide)), by decide⟩⟩

/-- V-J4. -/
theorem witness_JumpToItselfNeverStops :
    Ready (machine 32 4 [0x70, 0x04]) ∧ (machine 32 4 [0x70, 0x04]).maxSteps = none ∧
    decode (fetchWindow (machine 32 4 [0x70, 0x04])) = .ok (.jmp (machine 32 4 [0x70, 0x04]).pc) := by
  unfold Ready
  decide

theorem witness_FlagsAreWrittenByArithmeticAlone :
    exec .nop State.reset = .next { State.reset with pc := 1 } ∧ writesFlags .nop = false ∧
    step (machine 32 0 [0x64]) = .next { machine 32 0 [0x64] with status := .INS, stepCount := 1 } :=
  ⟨eq_next_of_isNext (by decide), rfl, eq_next_of_isNext (by decide)⟩

theorem witness_FlagsAreReadByConditionalsAlone : readsFlags (.popl .esp) = false ∧ readsFlags (.jg 0) = true := by decide

theorem witness_UnusedRegistersAreNeitherReadNorWritten :
    Reg.eax ∉ uses (.pushl .ecx) ∧ Reg.esp ∈ uses (.pushl .ecx) ∧ Reg.ecx ∉ uses .ret := by decide

/-- The bytes on either side of the stored word 0x1B to 0x1E of V-S4. -/
theorem witness_MemoryChangesOnlyAtTheStoreAddress :
    let s := (machine 32 0 [0xA0, 0x0F]).setReg .esp 0x1F
    Memory.wf s.mem = true ∧ storeAddress s (.pushl .eax) = some 0x1B ∧
      exec (.pushl .eax) s = .next { s.setReg .esp 0x1B with pc := 2 } ∧ 0x1A < 0x1B ∧ 0x1B + 4 ≤ 0x1F :=
  ⟨by decide, by decide, eq_next_of_isNext (by decide), by decide, by decide⟩

/-- Both sides of every bound of AddressCause, in a machine of 32 bytes. -/
theorem witness_InstructionsCompleteExactlyWithoutAnAddressCause :
    let s (e : Word) := (machine 32 0 []).setReg .esp e
    AddressCause (s 3) (.pushl .eax) ∧ ¬ AddressCause (s 4) (.pushl .eax) ∧ ¬ AddressCause (s 31) (.pushl .eax) ∧
    AddressCause (s 32) (.pushl .eax) ∧ ¬ AddressCause (s 0) (.popl .eax) ∧ ¬ AddressCause (s 27) (.popl .eax) ∧
    AddressCause (s 28) (.popl .eax) ∧ AddressCause (s 0) (.mrmovl .eax .esp 29) ∧
    ¬ AddressCause (s 0) (.mrmovl .eax .esp 28) ∧ AddressCause (s 4) (.call 27) ∧ ¬ AddressCause (s 4) (.call 26) ∧
    ¬ AddressCause (s 0) .ret ∧ ¬ AddressCause (s 0) (.je 27) ∧ AddressCause (s 0) (.jne 27) := by
  unfold AddressCause BadTarget BadPush BadPop BadWord
  decide

/-- The opcode bytes each clause speaks of, at both ends of their ranges. -/
theorem witness_HaltNopIrmovl_opcode_bytes :
    (0 < (0x01 : Byte).toNat ∧ (0x0F : Byte).toNat < 16) ∧ (0x10 < (0x11 : Byte).toNat ∧ (0x1F : Byte).toNat < 0x20) ∧
    (0x30 < (0x31 : Byte).toNat ∧ (0x3F : Byte).toNat < 0x40) ∧
    (⟨0x30, 0xF7, 0, 0, 0, 0⟩ : Window).b0 = 0x30#8 ∧ decode ⟨0x30, 0xF7, 0, 0, 0, 0⟩ = .ok (.irmovl .ebp 0) := by decide

/-- The lists that the statements about moves, arithmetic and names range over are not empty. -/
theorem witness_lists_of_forms :
    Instr.ixorl .eax 1 ∈ [Instr.addl .ecx .eax, .iaddl .eax 1, .subl .ecx .eax, .isubl .eax 1, .andl .ecx .eax, .iandl .eax 1,
      .xorl .ecx .eax, .ixorl .eax 1] ∧ Instr.iaddl .eax 1 ∈ [Instr.addl .ecx .eax, .iaddl .eax 1] ∧
    (("ebp", 7, .ebp) : String × Fin 8 × Reg) ∈ [("eax", 0, .eax), ("ebp", 7, .ebp)] := by decide

/-- The two ends of the window of addresses a word can be stored to or loaded from. -/
theorem witness_RmmovlStoresItsRegister :
    let s := (machine 32 0 []).setReg .ebx 4
    Memory.wf s.mem = true ∧ effectiveAddress s .ebx 0xFFFFFFFC = 0 ∧ (effectiveAddress s .ebx 24).toInt = (s.memSize : Int) - 4 := by
  decide

theorem witness_MrmovlLoadsItsRegister :
    let s := (machine 32 0 []).setReg .esp 4
    0 ≤ (effectiveAddress s .esp 0xFFFFFFFC).toInt ∧ (effectiveAddress s .esp 24).toInt = (s.memSize : Int) - 4 := by decide

/-- A taken jump to each end of the fetchable addresses; an untaken one needs nothing of its target. -/
theorem witness_JumpsGoToTheirTargetExactlyWhenTaken :
    0 ≤ (0 : Word).toInt ∧ (0x1A : Word).toInt = ((machine 32 0 []).memSize : Int) - 6 ∧
    condHolds .ne (machine 32 0 []).flags = true ∧ condHolds .e (machine 32 0 []).flags = false := by decide

/-- esp at the lowest and the highest legal push, the target at both ends. -/
theorem witness_CallPushesItsReturnAddress :
    Memory.wf (machine 32 0 []).mem = true ∧ 0 ≤ (0 : Word).toInt ∧ (26 : Word).toInt ≤ ((machine 32 0 []).memSize : Int) - 6 ∧
    4 ≤ (((machine 32 0 []).setReg .esp 4).reg .esp).toInt ∧
    (((machine 32 0 []).setReg .esp 31).reg .esp).toInt < ((machine 32 0 []).memSize : Int) := by decide

/-- esp at the lowest and the highest legal pop; zero bytes hold the target 0, and the bytes at 27 the target 26. -/
theorem witness_RetPopsItsTarget :
    let s := withBytes 27 [0x1A] ((machine 32 0 []).setReg .esp 27)
    HoldsWord (s.reg .esp).toNat 26 s ∧ 0 ≤ (s.reg .esp).toInt ∧ (s.reg .esp).toInt < (s.memSize : Int) - 4 ∧
    (26 : Word).toInt ≤ (s.memSize : Int) - 6 ∧ HoldsWord ((machine 32 0 []).reg .esp).toNat 0 (machine 32 0 []) ∧
    0 ≤ ((machine 32 0 []).reg .esp).toInt := by
  unfold HoldsWord
  decide

theorem witness_PushlStoresTheOldRegister :
    Memory.wf (machine 32 0 []).mem = true ∧ 4 ≤ (((machine 32 0 []).setReg .esp 4).reg .esp).toInt ∧
    (((machine 32 0 []).setReg .esp 31).reg .esp).toInt < ((machine 32 0 []).memSize : Int) := by decide

theorem witness_PoplLoadsThePoppedWord :
    0 ≤ (((machine 32 0 []).setReg .esp 0).reg .esp).toInt ∧
    (((machine 32 0 []).setReg .esp 27).reg .esp).toInt < ((machine 32 0 []).memSize : Int) - 4 := by decide

theorem witness_PushAndPopUndoEachOther :
    let s (e : Word) := (machine 32 0 []).setReg .esp e
    Config.LegalMemSize (s 4).memSize ∧ Memory.wf (s 4).mem = true ∧ Reg.eax ≠ .esp ∧ 4 ≤ ((s 4).reg .esp).toInt ∧
    ((s 31).reg .esp).toInt < ((s 31).memSize : Int) ∧ 0 ≤ ((s 0).reg .esp).toInt ∧
    ((s 27).reg .esp).toInt < ((s 27).memSize : Int) - 4 := by decide

/-- A call at 21, whose return address 26 is the last fetchable one, and a later state with the same stack. -/
theorem witness_RetReturnsBehindItsCall :
    let s := (machine 32 21 [0x80, 0x00]).setReg .esp 4
    Memory.wf s.mem = true ∧ 0 ≤ (0 : Word).toInt ∧ (0 : Word).toInt ≤ (s.memSize : Int) - 6 ∧ 4 ≤ (s.reg .esp).toInt ∧
    (s.reg .esp).toInt < (s.memSize : Int) ∧ 0 ≤ (s.pc + 5).toInt ∧ (s.pc + 5).toInt = (s.memSize : Int) - 6 ∧
    exec (.call 0) s = .next { (s.setReg .esp 0).setWord 0 26 with pc := 0 } :=
  ⟨by decide, by decide, by decide, by decide, by decide, by decide, by decide, eq_next_of_isNext (by decide)⟩

/-- P5's store: the word at 12 fills the bytes 0 to 3 of the window at 12 and the byte 5 of the window at 7; the lowest
and the highest legal push, with a target at the last fetchable address. -/
theorem witness_StoresAreSeenByTheNextFetch :
    let s := machine 32 6 [0x40, 0x03, 0x0C]
    let p (e : Word) := s.setReg .esp e
    Memory.wf s.mem = true ∧ 0 ≤ (effectiveAddress s .ebx 12).toInt ∧
    (effectiveAddress s .ebx 12).toInt ≤ (s.memSize : Int) - 4 ∧ 7 + 5 = (effectiveAddress s .ebx 12).toNat + 0 ∧
    12 + 3 = (effectiveAddress s .ebx 12).toNat + 3 ∧ Memory.wf (p 4).mem = true ∧ 4 ≤ ((p 4).reg .esp).toInt ∧
    ((p 4).reg .esp - 4).toNat = 0 ∧ ((p 31).reg .esp).toInt < ((p 31).memSize : Int) ∧
    (26 : Word).toInt = ((p 31).memSize : Int) - 6 := by decide

/-- A buffer that ends with memory, and one that is a byte too long. -/
theorem witness_LoaderWritesExactlyItsBuffer :
    Memory.wf (State.resetWith 6).mem = true ∧ 3 + [(1 : Byte), 0, 2].length ≤ (State.resetWith 6).memSize ∧
    (State.resetWith 6).memSize < 4 + [(1 : Byte), 0, 2].length := by decide

/-- The last address of memory and the first one beyond it. -/
theorem witness_ReaderSeesMemoryInsideItsSizeAndTheStatusForms :
    31 < (machine 32 26 [0x10]).memSize ∧ (machine 32 26 [0x10]).memSize ≤ 32 ∧
    readByte (machine 32 26 [0x10]) 26 = some 0x10 := by decide

end Sys2Proof.Tests
end

section
/-! The codec of R17 (O6). -/

namespace Sys2Proof.Machine

/-- Big-endian decoding is little-endian decoding of the bytes in reversed order (R17). -/
theorem decodeBE_eq_decodeLE (b0 b1 b2 b3 : Byte) : decodeBE b3 b2 b1 b0 = decodeLE b0 b1 b2 b3 := rfl

/-- Decoding undoes big-endian encoding (R17). -/
@[simp] theorem decodeBE_byteOf (v : Word) : decodeBE (byteOf v 3) (byteOf v 2) (byteOf v 1) (byteOf v 0) = v := by
  rw [decodeBE_eq_decodeLE, decodeLE_byteOf]

/-- A word as the weighted sum of its four bytes. -/
theorem toNat_eq_sum_byteOf (v : Word) : v.toNat = (byteOf v 0).toNat + 256 * (byteOf v 1).toNat +
    65536 * (byteOf v 2).toNat + 16777216 * (byteOf v 3).toNat := by
  rw [← decodeLE_toNat, decodeLE_byteOf]

theorem signBit_eq_true_iff (v : Word) : signBit v = true ↔ 0x80000000 ≤ v.toNat := by
  rw [signBit_eq, decide_eq_true_iff]
  norm_num

/-- A word store writes the bytes of the little-endian encoding (R14). -/
theorem Memory.writeWord_eq_writeBytes (m : List Host.Cell) (a : Nat) (v : Word) :
    Memory.writeWord m a v = Memory.writeBytes m a (encodeLE v) := rfl

/-- Settles O6: the four bytes of both encodings are `byteOf v 0` to `byteOf v 3`. -/
theorem codecRoundTripsInBothByteOrders : Obligations.CodecRoundTripsInBothByteOrders := by
  intro v
  have codec : ∃ b0 b1 b2 b3 : Byte, encodeLE v = [b0, b1, b2, b3] ∧ encodeBE v = [b3, b2, b1, b0] ∧
      v.toNat = b0.toNat + 256 * b1.toNat + 65536 * b2.toNat + 16777216 * b3.toNat ∧
      decodeLE b0 b1 b2 b3 = v ∧ decodeBE b3 b2 b1 b0 = v :=
    ⟨byteOf v 0, byteOf v 1, byteOf v 2, byteOf v 3, rfl, rfl, toNat_eq_sum_byteOf v, decodeLE_byteOf v,
      decodeBE_byteOf v⟩
  exact ⟨codec, signBit_eq_true_iff v, fun m a => ⟨Memory.writeWord_eq_writeBytes m a v, rfl⟩⟩

end Sys2Proof.Machine
end

section
/-! The flags as written by the arithmetic instructions alone (O22). -/

namespace Sys2Proof.Machine

/-- An operation that is known to answer a state with the old flags keeps them, whatever name its next state has. -/
theorem keepsFlags_of_eq_next {o : Outcome} {s t u : State} (h : o = .next t) (e : o = .next u)
    (hu : KeepsFlags s u) : KeepsFlags s t := by
  cases h.symm.trans e
  exact hu

theorem moveIf_keepsFlags {c : CondCode} {a b : Reg} {s t : State} (h : moveIf c a b s = .next t) : KeepsFlags s t :=
  keepsFlags_of_eq_next h (moveIf_eq s c a b) rfl

theorem jumpIf_keepsFlags {c : CondCode} {d : Word} {s t : State} (h : jumpIf c d s = .next t) : KeepsFlags s t := by
  rcases jumpIf_cases s c d with ⟨-, e⟩ | ⟨-, -, e⟩ | ⟨-, -, e⟩ <;> exact keepsFlags_of_eq_next h e rfl

/-- R31: an instruction outside the list of the writers keeps the flags, also when it raises a terminal status. -/
theorem exec_keepsFlags {i : Instr} {s t : State} (h : exec i s = .next t) (hi : writesFlags i = false) :
    KeepsFlags s t := by
  cases i
  case halt | nop | irmovl => exact keepsFlags_of_eq_next h rfl rfl
  case rrmovl | cmovle | cmovl | cmove | cmovne | cmovge | cmovg => exact moveIf_keepsFlags h
  case jmp | jle | jl | je | jne | jge | jg =>
    simp only [exec_jmp, exec_jle, exec_jl, exec_je, exec_jne, exec_jge, exec_jg] at h
    exact jumpIf_keepsFlags h
  case rmmovl a b v => rcases rmmovl_cases s a b v with ⟨-, e⟩ | ⟨-, e⟩ <;> exact keepsFlags_of_eq_next h e rfl
  case mrmovl a b v => rcases mrmovl_cases s a b v with ⟨-, e⟩ | ⟨-, e⟩ <;> exact keepsFlags_of_eq_next h e rfl
  case pushl a => rcases pushl_cases s a with ⟨-, e⟩ | ⟨-, e⟩ <;> exact keepsFlags_of_eq_next h e rfl
  case popl a => rcases popl_cases s a with ⟨-, e⟩ | ⟨-, e⟩ <;> exact keepsFlags_of_eq_next h e rfl
  case call d => rcases call_cases s d with ⟨-, -, e⟩ | ⟨-, e⟩ <;> exact keepsFlags_of_eq_next h e rfl
  case ret => rcases ret_cases s with ⟨-, -, e⟩ | ⟨-, e⟩ <;> exact keepsFlags_of_eq_next h e rfl
  case addl | subl | andl | xorl | iaddl | isubl | iandl | ixorl => cases hi

/-- A writer of the flags is the ALU on some operands and an advance of pc (R165). -/
theorem exec_of_writesFlags {i : Instr} (s : State) (hi : writesFlags i = true) :
    ∃ n op v b, exec i s = .next (advance n (alu op v b s)) := by
  cases i
  case addl | subl | andl | xorl => exact ⟨_, _, _, _, aluReg_eq ..⟩
  case iaddl | isubl | iandl | ixorl => exact ⟨_, _, _, _, aluImm_eq ..⟩
  all_goals cases hi

@[simp] theorem alu_status (op : AluOp) (v : Word) (b : Reg) (s : State) : (alu op v b s).status = s.status := rfl

/-- R160: the register form leaves the updater's flags, whatever flags it found. -/
theorem aluReg_withFlags (op : AluOp) (a b : Reg) (s : State) (f : Flags) :
    ∃ t, aluReg op a b { s with flags := f } = .next t ∧ t.flags = aluFlags op (s.reg b) (s.reg a) :=
  ⟨_, aluReg_eq .., rfl⟩

/-- R160: so does the immediate form. -/
theorem aluImm_withFlags (op : AluOp) (b : Reg) (v : Word) (s : State) (f : Flags) :
    ∃ t, aluImm op b v { s with flags := f } = .next t ∧ t.flags = aluFlags op (s.reg b) v :=
  ⟨_, aluImm_eq .., rfl⟩

/-- A step that ends in INS keeps the flags: a writer of the flags completes with status AOK, so either the window was
rejected or the instruction is no writer. -/
theorem step_keepsFlags_of_ins {s t : State} (h : step s = .next t) (ht : t.status = .INS) : KeepsFlags s t := by
  obtain ⟨hs, -, hit⟩ := step_eq_next_iff.mp h
  rcases iteration_cases s with ⟨-, e⟩ | ⟨_, -, -, e⟩ | ⟨i, -, -, e⟩
  · exact keepsFlags_of_eq_next hit e rfl
  · exact keepsFlags_of_eq_next hit e rfl
  · rw [e] at hit
    cases hi : writesFlags i with
    | false => exact (exec_keepsFlags hit hi).trans (countStep_flags s)
    | true =>
      obtain ⟨n, op, v, b, hexec⟩ := exec_of_writesFlags (countStep s) hi
      cases hexec.symm.trans hit
      simp [hs] at ht

/-- Settles O22, by one case per family of instructions. -/
theorem flagsAreWrittenByArithmeticAlone : Obligations.FlagsAreWrittenByArithmeticAlone := by
  refine ⟨fun _ _ _ => exec_keepsFlags, ?_, fun l s => runEntry_flags s l, fun _ _ => step_keepsFlags_of_ins⟩
  intro s a b v m hm
  simp only [List.mem_cons, List.not_mem_nil, or_false] at hm
  rcases hm with rfl | rfl | rfl | rfl | rfl | rfl | rfl | rfl
  iterate 4 exact ⟨rfl, aluReg_withFlags _ a b s⟩
  iterate 4 exact ⟨rfl, aluImm_withFlags _ b v s⟩

end Sys2Proof.Machine
end

section
/-! The opcode table against the decoder (O3): both read a window as its opcode byte and its two register fields. -/

namespace Sys2Proof

open Sys2Proof.Machine

/-! ### A row of the table as an opcode byte and two register fields (R89) -/

/-- The opcode byte a row asks for: the high byte of its pattern. -/
def OpcodeRow.opcode (row : OpcodeRow) : Byte := row.pattern.extractLsb' 8 8

/-- What a row's class demands of the two register fields (R86). -/
def OpcodeRow.kinds (row : OpcodeRow) : FieldKind × FieldKind := fieldKinds (highNibble row.opcode).toNat

/-- The bits of a register field that R86 fixes. -/
def FieldKind.mask : FieldKind → BitVec 4
  | .register => 0x8
  | .absent => 0xF
  | .ignored => 0x0

/-- The value of those bits. -/
def FieldKind.pattern : FieldKind → BitVec 4
  | .register => 0x0
  | .absent => 0xF
  | .ignored => 0x0

/-- R86's condition on a register field is a comparison under a mask, as R89 writes it. -/
theorem FieldKind.and_mask_eq_pattern_iff (k : FieldKind) (r : BitVec 4) :
    r &&& k.mask = k.pattern ↔ k.admits r = true := by
  revert r
  cases k <;> decide

/-- Every row fixes the whole opcode byte, and of the register fields what R86 says about its class; its function code is
one of its class (R87). -/
theorem shape_of_mem_opcodeTable : ∀ row ∈ opcodeTable,
    row.mask = 0xFF#8 ++ (row.kinds.1.mask ++ row.kinds.2.mask) ∧
    row.pattern = row.opcode ++ (row.kinds.1.pattern ++ row.kinds.2.pattern) ∧
    (lowNibble row.opcode).toNat < functionCount (highNibble row.opcode).toNat := by decide

theorem nibbles_highNibble_lowNibble (b : Byte) : nibbles (highNibble b) (lowNibble b) = b :=
  BitVec.extractLsb'_append_extractLsb'

/-- Two concatenations of the same widths agree exactly when both parts do. -/
theorem bitVec_append_eq_append_iff {m n : Nat} {x x' : BitVec m} {y y' : BitVec n} :
    x ++ y = x' ++ y' ↔ x = x' ∧ y = y' := by
  constructor
  · intro h
    have hx := congrArg (BitVec.extractLsb' n m) h
    have hy := congrArg (BitVec.extractLsb' 0 n) h
    rw [BitVec.extractLsb'_append_eq_left, BitVec.extractLsb'_append_eq_left] at hx
    rw [BitVec.extractLsb'_append_eq_right, BitVec.extractLsb'_append_eq_right] at hy
    exact ⟨hx, hy⟩
  · rintro ⟨rfl, rfl⟩
    rfl

/-- R89's comparison, taken apart into the opcode byte and the two register fields. -/
theorem selects_iff_admits {row : OpcodeRow} (hrow : row ∈ opcodeTable) (w : Window) :
    row.selects w = true ↔
      w.b0 = row.opcode ∧ row.kinds.1.admits w.fields.rA = true ∧ row.kinds.2.admits w.fields.rB = true := by
  obtain ⟨hmask, hpattern, -⟩ := shape_of_mem_opcodeTable row hrow
  have hb1 : w.b1 = w.fields.rA ++ w.fields.rB := (nibbles_highNibble_lowNibble w.b1).symm
  have hb0 : w.b0 &&& 0xFF#8 = w.b0 := BitVec.and_allOnes
  rw [OpcodeRow.selects, beq_iff_eq, hmask, hpattern, hb1, BitVec.and_append, BitVec.and_append,
    bitVec_append_eq_append_iff, bitVec_append_eq_append_iff, hb0, FieldKind.and_mask_eq_pattern_iff,
    FieldKind.and_mask_eq_pattern_iff]

/-- A row selects a window exactly when the opcode byte is its own and the window is well-formed. -/
theorem selects_iff {row : OpcodeRow} (hrow : row ∈ opcodeTable) (w : Window) :
    row.selects w = true ↔ w.b0 = row.opcode ∧ w.fields.wellFormed = true := by
  obtain ⟨-, -, hfun⟩ := shape_of_mem_opcodeTable row hrow
  rw [selects_iff_admits hrow]
  refine and_congr_right fun hb0 => ?_
  simp [Fields.wellFormed, Window.fields, hb0, hfun, OpcodeRow.kinds]

/-- Two different rows ask for different opcode bytes. -/
theorem opcodeTable_opcode_nodup : (opcodeTable.map OpcodeRow.opcode).Nodup := by decide

/-- Different rows have different names. -/
theorem opcodeTable_mnemonic_nodup : (opcodeTable.map OpcodeRow.mnemonic).Nodup := by decide

/-- No window has the opcode bytes of two different rows. -/
theorem opcodeTable_pairwise_disjoint :
    opcodeTable.Pairwise (fun row other => ∀ w : Window, row.selects w = true → other.selects w = false) := by
  refine (List.pairwise_map.mp opcodeTable_opcode_nodup).imp_of_mem fun hrow hother hne w h => ?_
  rw [Bool.eq_false_iff]
  intro h'
  exact hne (((selects_iff hrow w).mp h).1.symm.trans ((selects_iff hother w).mp h').1)

/-- R87 against R89: every function code of every class has its row. -/
theorem exists_row_of_lt_functionCount : ∀ b : Byte, (lowNibble b).toNat < functionCount (highNibble b).toNat →
    ∃ row ∈ opcodeTable, b = row.opcode := by decide

/-- A window decodes exactly when some row selects it. -/
theorem decode_isOk_iff_exists_selects (w : Window) :
    (∃ i, decode w = .ok i) ↔ ∃ row ∈ opcodeTable, row.selects w = true := by
  simp only [decode, decodeFields_isOk_iff_wellFormed]
  constructor
  · intro hwf
    have hfun : (lowNibble w.b0).toNat < functionCount (highNibble w.b0).toNat := by
      simp only [Fields.wellFormed, Bool.and_eq_true, decide_eq_true_eq] at hwf
      exact hwf.1.1
    obtain ⟨row, hrow, hb0⟩ := exists_row_of_lt_functionCount w.b0 hfun
    exact ⟨row, hrow, (selects_iff hrow w).mpr ⟨hb0, hwf⟩⟩
  · rintro ⟨row, hrow, h⟩
    exact ((selects_iff hrow w).mp h).2

/-! ### The row of an instruction -/

/-- The opcode byte of an instruction (R80): the first byte of its encoding. -/
def Instr.opcode (i : Instr) : Byte := (encode i).headD 0

/-- The row with an instruction's opcode byte has its mnemonic and its length. -/
theorem find_opcode (i : Instr) :
    (opcodeTable.find? (·.opcode == i.opcode)).map (fun row => (row.mnemonic, row.length)) =
      some (i.mnemonic, (encode i).length) := by
  cases i <;> rfl

/-- Every instruction has its row in the table. -/
theorem exists_row_of_instr (i : Instr) : ∃ row ∈ opcodeTable,
    row.opcode = i.opcode ∧ row.mnemonic = i.mnemonic ∧ row.length = (encode i).length := by
  obtain ⟨row, hfind, hrow⟩ := Option.map_eq_some_iff.mp (find_opcode i)
  obtain ⟨hm, hl⟩ := Prod.mk.inj hrow
  exact ⟨row, List.mem_of_find?_eq_some hfind, by simpa using List.find?_some hfind, hm, hl⟩

/-! What a decoder helper accepts was made by its constructor, so it has that constructor's opcode byte. -/

theorem twoRegisters_opcode {f : Fields} {mk : Reg → Reg → Instr} {i : Instr} {o : Byte}
    (h : twoRegisters f mk = .ok i) (ho : ∀ a b, (mk a b).opcode = o) : i.opcode = o := by
  obtain ⟨a, b, -, -, rfl⟩ := (twoRegisters_ok_iff f mk i).mp h
  exact ho a b

theorem noneThenRegister_opcode {f : Fields} {mk : Reg → Instr} {i : Instr} {o : Byte}
    (h : noneThenRegister f mk = .ok i) (ho : ∀ b, (mk b).opcode = o) : i.opcode = o := by
  obtain ⟨b, -, -, rfl⟩ := (noneThenRegister_ok_iff f mk i).mp h
  exact ho b

theorem registerThenNone_opcode {f : Fields} {mk : Reg → Instr} {i : Instr} {o : Byte}
    (h : registerThenNone f mk = .ok i) (ho : ∀ a, (mk a).opcode = o) : i.opcode = o := by
  obtain ⟨a, -, -, rfl⟩ := (registerThenNone_ok_iff f mk i).mp h
  exact ho a

/-- The byte with a given class and function code. -/
theorem nibbles_eq_of_toNat {c n : BitVec 4} {k l : Nat} (hc : c.toNat = k) (hn : n.toNat = l) :
    nibbles c n = nibbles (BitVec.ofNat 4 k) (BitVec.ofNat 4 l) := by
  rw [← hc, ← hn, BitVec.ofNat_toNat, BitVec.ofNat_toNat, BitVec.setWidth_eq, BitVec.setWidth_eq]

/-! The classes with several function codes, one code at a time (R87). -/

theorem decodeMove_opcode {f : Fields} {i : Instr} (hc : f.icls.toNat = 2) (h : decodeMove f = .ok i) :
    i.opcode = nibbles f.icls f.ifun := by
  unfold decodeMove at h
  split at h
  case h_8 => cases h
  all_goals
    rename_i hn
    rw [nibbles_eq_of_toNat hc hn]
    exact twoRegisters_opcode h fun _ _ => rfl

theorem decodeAluReg_opcode {f : Fields} {i : Instr} (hc : f.icls.toNat = 6) (h : decodeAluReg f = .ok i) :
    i.opcode = nibbles f.icls f.ifun := by
  unfold decodeAluReg at h
  split at h
  case h_5 => cases h
  all_goals
    rename_i hn
    rw [nibbles_eq_of_toNat hc hn]
    exact twoRegisters_opcode h fun _ _ => rfl

theorem decodeJump_opcode {f : Fields} {i : Instr} (hc : f.icls.toNat = 7) (h : decodeJump f = .ok i) :
    i.opcode = nibbles f.icls f.ifun := by
  unfold decodeJump at h
  split at h
  case h_8 => cases h
  all_goals
    rename_i hn
    rw [nibbles_eq_of_toNat hc hn]
    cases h
    rfl

theorem decodeAluImm_opcode {f : Fields} {i : Instr} (hc : f.icls.toNat = 12) (h : decodeAluImm f = .ok i) :
    i.opcode = nibbles f.icls f.ifun := by
  unfold decodeAluImm at h
  split at h
  case h_5 => cases h
  all_goals
    rename_i hn
    rw [nibbles_eq_of_toNat hc hn]
    exact noneThenRegister_opcode h fun _ => rfl

/-- The opcode byte of a decoded instruction is made of the class and the function code it was decoded from. -/
theorem decodeFields_opcode {f : Fields} {i : Instr} (h : decodeFields f = .ok i) :
    i.opcode = nibbles f.icls f.ifun := by
  unfold decodeFields at h
  split at h
  case h_3 hc => exact decodeMove_opcode hc h
  case h_7 hc => exact decodeAluReg_opcode hc h
  case h_8 hc => exact decodeJump_opcode hc h
  case h_13 hc => exact decodeAluImm_opcode hc h
  case h_14 => cases h
  all_goals
    rename_i hc
    obtain ⟨hz, h⟩ := (onlyFunctionZero_ok_iff ..).mp h
    rw [nibbles_eq_of_toNat hc (congrArg BitVec.toNat hz)]
  case h_4 => exact noneThenRegister_opcode h fun _ => rfl
  case h_5 | h_6 => exact twoRegisters_opcode h fun _ _ => rfl
  case h_11 | h_12 => exact registerThenNone_opcode h fun _ => rfl
  case h_1 | h_2 | h_9 | h_10 =>
    cases h
    rfl

/-- The opcode byte of a decoded instruction is the first byte of its window. -/
theorem decode_opcode {w : Window} {i : Instr} (h : decode w = .ok i) : i.opcode = w.b0 :=
  (decodeFields_opcode h).trans (nibbles_highNibble_lowNibble w.b0)

/-- Settles O3: selection is a comparison of opcode bytes on well-formed windows, and the rows have distinct opcode bytes
and distinct names. -/
theorem oneTableRowSelectsEachDecodedInstruction : Obligations.OneTableRowSelectsEachDecodedInstruction := by
  refine ⟨rfl, opcodeTable_pairwise_disjoint, decode_isOk_iff_exists_selects, fun w i row hi hrow => ?_⟩
  obtain ⟨own, hown, hopcode, hmnemonic, hlength⟩ := exists_row_of_instr i
  have hwf : w.fields.wellFormed = true := (decodeFields_isOk_iff_wellFormed w.fields).mp ⟨i, hi⟩
  have hselects : row.selects w = true ↔ row = own := by
    rw [selects_iff hrow, ← decode_opcode hi, ← hopcode, and_iff_left hwf, eq_comm]
    exact ⟨List.inj_on_of_nodup_map opcodeTable_opcode_nodup hrow hown, congrArg OpcodeRow.opcode⟩
  have hname : row.mnemonic = i.mnemonic ↔ row = own := by
    rw [← hmnemonic]
    exact ⟨List.inj_on_of_nodup_map opcodeTable_mnemonic_nodup hrow hown, congrArg OpcodeRow.mnemonic⟩
  refine ⟨hselects.trans hname.symm, fun h => ?_⟩
  rw [hname.mp h, hlength]

end Sys2Proof
end

section
/-! The engine loop: every iteration has a next state (R112), so a new run entry executes again (O9); and the two
instructions without operands that touch nothing but status or pc (O27, O28). -/

namespace Sys2Proof.Machine

/-! ### Every iteration has a next state -/

theorem jumpIf_exists_next (c : CondCode) (d : Word) (s : State) : ∃ t, jumpIf c d s = .next t := by
  rcases jumpIf_cases s c d with ⟨-, e⟩ | ⟨-, -, e⟩ | ⟨-, -, e⟩ <;> exact ⟨_, e⟩

/-- No instruction faults or is refused: an address cause is a next state with status ADR (R235). -/
theorem exec_exists_next (i : Instr) (s : State) : ∃ t, exec i s = .next t := by
  cases i
  case halt | nop | irmovl => exact ⟨_, rfl⟩
  case rrmovl | cmovle | cmovl | cmove | cmovne | cmovge | cmovg => exact ⟨_, moveIf_eq ..⟩
  case addl | subl | andl | xorl => exact ⟨_, aluReg_eq ..⟩
  case iaddl | isubl | iandl | ixorl => exact ⟨_, aluImm_eq ..⟩
  case jmp d | jle d | jl d | je d | jne d | jge d | jg d =>
    simp only [exec_jmp, exec_jle, exec_jl, exec_je, exec_jne, exec_jge, exec_jg]
    exact jumpIf_exists_next _ d s
  case rmmovl a b v => rcases rmmovl_cases s a b v with ⟨-, e⟩ | ⟨-, e⟩ <;> exact ⟨_, e⟩
  case mrmovl a b v => rcases mrmovl_cases s a b v with ⟨-, e⟩ | ⟨-, e⟩ <;> exact ⟨_, e⟩
  case pushl a => rcases pushl_cases s a with ⟨-, e⟩ | ⟨-, e⟩ <;> exact ⟨_, e⟩
  case popl a => rcases popl_cases s a with ⟨-, e⟩ | ⟨-, e⟩ <;> exact ⟨_, e⟩
  case call d => rcases call_cases s d with ⟨-, -, e⟩ | ⟨-, e⟩ <;> exact ⟨_, e⟩
  case ret => rcases ret_cases s with ⟨-, -, e⟩ | ⟨-, e⟩ <;> exact ⟨_, e⟩

theorem iteration_exists_next (s : State) : ∃ t, iteration s = .next t := by
  rcases iteration_cases s with ⟨-, e⟩ | ⟨_, -, -, e⟩ | ⟨i, -, -, e⟩
  · exact ⟨_, e⟩
  · exact ⟨_, e⟩
  · rw [e]
    exact exec_exists_next i (countStep s)

/-- Where the loop condition holds (R112, R119), the machine steps. -/
theorem step_exists_next (s : State) (hs : s.status = .AOK) (hl : s.limitReached = false) : ∃ t, step s = .next t := by
  rw [step_of_running hs hl]
  exact iteration_exists_next s

/-- Settles O9: a step needs status AOK, and the run entry without a budget restores the loop condition. -/
theorem stoppedMachineStepsOnlyAfterANewRunEntry : Obligations.StoppedMachineStepsOnlyAfterANewRunEntry := by
  intro s hs
  have noStep (t : State) : step s ≠ .next t := fun h => hs (step_eq_next_iff.mp h).1
  exact ⟨noStep, rfl, rfl, step_exists_next (runEntry none s) rfl rfl⟩

/-! ### halt and nop -/

/-- R87, R90: a window whose function code its class does not have is rejected, whatever its other bytes are. -/
theorem decode_error_of_functionCount_le {w : Window}
    (h : functionCount (highNibble w.b0).toNat ≤ (lowNibble w.b0).toNat) : ∃ e, decode w = .error e := by
  cases hd : decode w with
  | error e => exact ⟨e, rfl⟩
  | ok i =>
    have hwf : w.fields.wellFormed = true := (decodeFields_isOk_iff_wellFormed w.fields).mp ⟨i, hd⟩
    simp only [Fields.wellFormed, Bool.and_eq_true, decide_eq_true_eq] at hwf
    exact absurd hwf.1.1 (Nat.not_lt.mpr h)

/-- The same for a class with the one function code 0, in terms of the number in byte 0. -/
theorem decode_error_of_class {w : Window} {c : Nat} (hc : functionCount c = 1) (hlo : 16 * c < w.b0.toNat)
    (hhi : w.b0.toNat < 16 * c + 16) : ∃ e, decode w = .error e := by
  apply decode_error_of_functionCount_le
  have hclass : w.b0.toNat / 16 = c := by omega
  rw [highNibble_toNat, lowNibble_toNat, hclass, hc]
  omega

/-- Byte 0 alone makes a window halt. -/
theorem decode_eq_halt_iff (w : Window) : decode w = .ok .halt ↔ w.b0 = 0x00#8 := by
  refine ⟨fun h => (decode_opcode h).symm, fun h => ?_⟩
  simp [decode, decodeFields, onlyFunctionZero, Window.fields, highNibble, lowNibble, h]

/-- Byte 0 alone makes a window nop. -/
theorem decode_eq_nop_iff (w : Window) : decode w = .ok .nop ↔ w.b0 = 0x10#8 := by
  refine ⟨fun h => (decode_opcode h).symm, fun h => ?_⟩
  simp [decode, decodeFields, onlyFunctionZero, Window.fields, highNibble, lowNibble, h]

/-- Settles O27: class 0 has the function code 0 alone, and halt raises its status and writes nothing else. -/
theorem haltSetsHLTAndNothingElse : Obligations.HaltSetsHLTAndNothingElse := by
  constructor
  · exact fun w => ⟨decode_eq_halt_iff w, decode_error_of_class (c := 0) rfl⟩
  · intro s
    have keepsRegs : KeepsRegsExcept [] s { s with status := .HLT } := fun _ _ => rfl
    have keepsMemory : KeepsMemory s { s with status := .HLT } := fun _ => rfl
    exact ⟨_, exec_halt s, rfl, rfl, keepsRegs, rfl, keepsMemory, rfl, rfl, rfl⟩

/-- Settles O28: class 1 has the function code 0 alone, and nop advances pc and writes nothing else. -/
theorem nopAdvancesPcByOneAndNothingElse : Obligations.NopAdvancesPcByOneAndNothingElse := by
  constructor
  · exact fun w => ⟨decode_eq_nop_iff w, decode_error_of_class (c := 1) rfl⟩
  · intro s
    have keepsRegs : KeepsRegsExcept [] s (advance 1 s) := fun _ _ => reg_advance ..
    have keepsMemory : KeepsMemory s (advance 1 s) := fun _ => byte_advance ..
    exact ⟨_, exec_nop s, advance_pc .., keepsRegs, advance_flags .., keepsMemory, rfl, rfl, rfl, rfl⟩

end Sys2Proof.Machine
end

section
/-! The moves between registers and from an immediate (O29, O30): each writes one register and advances pc. -/

namespace Sys2Proof.Machine

/-- What writing one register and advancing pc does, and everything it leaves alone. -/
theorem advance_setReg_effect (n : Nat) (r : Reg) (v : Word) (s : State) :
    (advance n (s.setReg r v)).reg r = v ∧ (advance n (s.setReg r v)).pc = s.pc + BitVec.ofNat 32 n ∧
      KeepsRegsExcept [r] s (advance n (s.setReg r v)) ∧ KeepsFlags s (advance n (s.setReg r v)) ∧
      KeepsMemory s (advance n (s.setReg r v)) ∧ KeepsEngine s (advance n (s.setReg r v)) := by
  have readsBack : (advance n (s.setReg r v)).reg r = v := by simp
  have keepsRegs : KeepsRegsExcept [r] s (advance n (s.setReg r v)) := fun q hq =>
    (reg_advance ..).trans (reg_setReg_of_ne s v (List.ne_of_not_mem_cons hq))
  have keepsMemory : KeepsMemory s (advance n (s.setReg r v)) := fun _ => rfl
  exact ⟨readsBack, rfl, keepsRegs, rfl, keepsMemory, rfl, rfl, rfl, rfl⟩

/-! ### The seven moves of class 2 -/

/-- A byte of two nibbles as a number (R80). -/
theorem nibbles_eq_ofNat (a b : BitVec 4) : nibbles a b = BitVec.ofNat 8 (16 * a.toNat + b.toNat) := by
  have ha := highNibble_toNat (nibbles a b)
  have hb := lowNibble_toNat (nibbles a b)
  rw [highNibble_nibbles] at ha
  rw [lowNibble_nibbles] at hb
  rw [ha, hb, Nat.div_add_mod, BitVec.ofNat_toNat, BitVec.setWidth_eq]

/-- The register field holds the register's index (R21). -/
theorem field_toNat (r : Reg) : r.field.toNat = r.index.val := by cases r <;> rfl

/-- Format OR is the opcode byte and the two register indices in one byte (R80, R93). -/
theorem encodeOR_eq (opcode : Byte) (a b : Reg) :
    encodeOR opcode a b = [opcode, BitVec.ofNat 8 (16 * a.index.val + b.index.val)] := by
  rw [encodeOR, nibbles_eq_ofNat, field_toNat, field_toNat]

/-- R131: a move leaves the source's value in its destination when its condition holds, and the old one otherwise. -/
theorem moveIf_effect (c : CondCode) (a b : Reg) (s : State) :
    ∃ t, moveIf c a b s = .next t ∧ t.reg b = (if condHolds c s.flags then s.reg a else s.reg b) ∧ t.pc = s.pc + 2 ∧
      KeepsRegsExcept [b] s t ∧ KeepsFlags s t ∧ KeepsMemory s t ∧ KeepsEngine s t :=
  ⟨_, moveIf_eq s c a b, advance_setReg_effect 2 b _ s⟩

/-- Settles O29: each move is `moveIf` with its own condition code. -/
theorem movesCopyExactlyWhenTheirConditionHolds : Obligations.MovesCopyExactlyWhenTheirConditionHolds := by
  intro s a b m hm
  simp only [List.mem_cons, List.not_mem_nil, or_false] at hm
  rcases hm with rfl | rfl | rfl | rfl | rfl | rfl | rfl
  · exact ⟨encodeOR_eq _ a b, moveIf_effect .always a b s⟩
  · exact ⟨encodeOR_eq _ a b, moveIf_effect .le a b s⟩
  · exact ⟨encodeOR_eq _ a b, moveIf_effect .l a b s⟩
  · exact ⟨encodeOR_eq _ a b, moveIf_effect .e a b s⟩
  · exact ⟨encodeOR_eq _ a b, moveIf_effect .ne a b s⟩
  · exact ⟨encodeOR_eq _ a b, moveIf_effect .ge a b s⟩
  · exact ⟨encodeOR_eq _ a b, moveIf_effect .g a b s⟩

/-! ### irmovl -/

/-- R24: the fields that name a register are the numbers below 8. -/
theorem exists_field_iff_toNat_lt (f : BitVec 4) : (∃ r : Reg, f = r.field) ↔ f.toNat < 8 := by
  rw [exists_field_iff]
  revert f
  decide

/-- Behind the opcode byte 30 the decoder asks for no rA and a register rB, and answers irmovl (R86, R139). -/
theorem decode_opcode_irmovl {w : Window} (h : w.b0 = 0x30#8) :
    decode w = noneThenRegister w.fields (.irmovl · w.fields.val) := by
  simp [decode, decodeFields, onlyFunctionZero, Window.fields, highNibble, lowNibble, h]

/-- What a window with the opcode byte 30 decodes to, and when. -/
theorem decode_ok_iff_of_opcode_irmovl {w : Window} (h : w.b0 = 0x30#8) (i : Instr) : decode w = .ok i ↔
    ∃ b : Reg, w.fields.rA = 0xF#4 ∧ w.fields.rB = b.field ∧ i = .irmovl b w.fields.val := by
  rw [decode_opcode_irmovl h, noneThenRegister_ok_iff]

/-- The register fields in terms of the number in byte 1. -/
theorem fields_none_register_iff (w : Window) : (w.fields.rA = 0xF#4 ∧ ∃ b : Reg, w.fields.rB = b.field) ↔
    w.b1.toNat / 16 = 15 ∧ w.b1.toNat % 16 < 8 := by
  rw [exists_field_iff_toNat_lt, ← BitVec.toNat_inj, ← highNibble_toNat, ← lowNibble_toNat]
  rfl

/-- A window with the opcode byte 30 holds an irmovl exactly when its register byte is F0 to F7. -/
theorem exists_decode_irmovl_iff {w : Window} (h : w.b0 = 0x30#8) :
    (∃ b v, decode w = .ok (.irmovl b v)) ↔ w.b1.toNat / 16 = 15 ∧ w.b1.toNat % 16 < 8 := by
  simp only [← fields_none_register_iff, decode_ok_iff_of_opcode_irmovl h]
  constructor
  · rintro ⟨_, _, b, hA, hB, -⟩
    exact ⟨hA, b, hB⟩
  · rintro ⟨hA, b, hB⟩
    exact ⟨b, _, b, hA, hB, rfl⟩

/-- Settles O30: the opcode byte 30 leads to irmovl alone, class 3 has the function code 0 alone, and irmovl writes its
immediate to one register. -/
theorem irmovlLoadsItsImmediate : Obligations.IrmovlLoadsItsImmediate := by
  refine ⟨fun w h => ⟨exists_decode_irmovl_iff h, fun i hi => ?_⟩, fun w => decode_error_of_class (c := 3) rfl,
    fun s b v => ⟨rfl, _, exec_irmovl s b v, advance_setReg_effect 6 b v s⟩⟩
  obtain ⟨b, -, -, rfl⟩ := (decode_ok_iff_of_opcode_irmovl h i).mp hi
  exact ⟨b, _, rfl⟩

end Sys2Proof.Machine
end

section
/-! The arithmetic instructions (O33): the ALU writes one register and the flags, then pc advances. -/

namespace Sys2Proof.Machine

/-! ### The ALU and its flags -/

@[simp] theorem alu_reg_same (op : AluOp) (v : Word) (b : Reg) (s : State) :
    (alu op v b s).reg b = aluResult op (s.reg b) v := reg_setReg_same s b _

theorem alu_reg_of_ne (op : AluOp) (v : Word) {b r : Reg} (s : State) (h : r ≠ b) : (alu op v b s).reg r = s.reg r :=
  reg_setReg_of_ne s _ h

theorem aluFlags_ZF_eq (op : AluOp) (x y : Word) :
    (aluFlags op x y).ZF = decide ((aluResult op x y).toNat = 0) :=
  decide_eq_decide.mpr BitVec.toNat_inj.symm

theorem aluFlags_SF_eq (op : AluOp) (x y : Word) :
    (aluFlags op x y).SF = decide (0x80000000 ≤ (aluResult op x y).toNat) := signBit_eq _

/-- R160 and R165: the result, the flags from it, and everything that an arithmetic instruction leaves alone. -/
theorem advance_alu_effect {o : Outcome} {n : Nat} {op : AluOp} {v : Word} {b : Reg} {s : State}
    (ho : o = .next (advance n (alu op v b s))) :
    ∃ t, o = .next t ∧ t.reg b = aluResult op (s.reg b) v ∧ t.flags.ZF = decide ((t.reg b).toNat = 0) ∧
      t.flags.SF = decide (0x80000000 ≤ (t.reg b).toNat) ∧ t.flags.OF = aluOverflow op (s.reg b) (t.reg b) ∧
      t.pc = s.pc + BitVec.ofNat 32 n ∧ KeepsRegsExcept [b] s t ∧ KeepsMemory s t ∧ KeepsEngine s t := by
  have result : (advance n (alu op v b s)).reg b = aluResult op (s.reg b) v := by simp
  have keepsRegs : KeepsRegsExcept [b] s (advance n (alu op v b s)) := fun q hq =>
    (reg_advance ..).trans (alu_reg_of_ne op v s (List.ne_of_not_mem_cons hq))
  refine ⟨_, ho, result, ?_⟩
  rw [result]
  exact ⟨aluFlags_ZF_eq op _ v, aluFlags_SF_eq op _ v, rfl, rfl, keepsRegs, fun _ => rfl, rfl, rfl, rfl, rfl⟩

/-! ### and, xor -/

/-- R163 and R164: where the ALU operation works bit by bit and its OF formula is false, so does the instruction. -/
theorem advance_alu_bitwise_effect {op : AluOp} {f : Bool → Bool → Bool}
    (hbits : ∀ (x y : Word) (k : Nat), (aluResult op x y).getLsbD k = f (x.getLsbD k) (y.getLsbD k))
    (hOF : ∀ x r, aluOverflow op x r = false) {o : Outcome} {n : Nat} {v : Word} {b : Reg} {s : State}
    (ho : o = .next (advance n (alu op v b s))) :
    ∃ t, o = .next t ∧ (∀ k, k < 32 → (t.reg b).getLsbD k = f ((s.reg b).getLsbD k) (v.getLsbD k)) ∧
      t.flags.ZF = decide ((t.reg b).toNat = 0) ∧ t.flags.SF = decide (0x80000000 ≤ (t.reg b).toNat) ∧
      t.flags.OF = false ∧ t.pc = s.pc + BitVec.ofNat 32 n ∧
      KeepsRegsExcept [b] s t ∧ KeepsMemory s t ∧ KeepsEngine s t := by
  obtain ⟨t, ht, result, hZF, hSF, overflow, pcAndFrame⟩ := advance_alu_effect ho
  have bits (k : Nat) (_ : k < 32) : (t.reg b).getLsbD k = f ((s.reg b).getLsbD k) (v.getLsbD k) := by
    rw [result, hbits]
  exact ⟨t, ht, bits, hZF, hSF, overflow.trans (hOF ..), pcAndFrame⟩

theorem getLsbD_aluResult_and (x y : Word) (k : Nat) :
    (aluResult .and x y).getLsbD k = Bool.and (x.getLsbD k) (y.getLsbD k) := BitVec.getLsbD_and

theorem getLsbD_aluResult_xor (x y : Word) (k : Nat) :
    (aluResult .xor x y).getLsbD k = Bool.xor (x.getLsbD k) (y.getLsbD k) := BitVec.getLsbD_xor

/-- Settles O33: the ALU's and, xor work bit by bit, and the two operand forms differ in the second operand and the
length alone. -/
theorem andXorWriteResultAndFlags : Obligations.AndXorWriteResultAndFlags := by
  intro s a b v m hm
  simp only [List.mem_cons, List.not_mem_nil, or_false] at hm
  rcases hm with rfl | rfl | rfl | rfl
  · exact advance_alu_bitwise_effect getLsbD_aluResult_and (fun _ _ => rfl) (aluReg_eq s .and a b)
  · exact advance_alu_bitwise_effect getLsbD_aluResult_and (fun _ _ => rfl) (aluImm_eq s .and b v)
  · exact advance_alu_bitwise_effect getLsbD_aluResult_xor (fun _ _ => rfl) (aluReg_eq s .xor a b)
  · exact advance_alu_bitwise_effect getLsbD_aluResult_xor (fun _ _ => rfl) (aluImm_eq s .xor b v)

end Sys2Proof.Machine
end

section
/-! HLT as the mark of halt alone (O13): every other instruction leaves the status or raises ADR. -/

namespace Sys2Proof.Machine

/-- The outcome is a next state that has the status of `s` or ADR. -/
def KeepsStatusOrADR (s : State) (o : Outcome) : Prop :=
  ∃ t, o = .next t ∧ (t.status = s.status ∨ t.status = .ADR)

theorem keepsStatusOrADR_of_next {s u : State} {o : Outcome} (e : o = .next u) (hu : u.status = s.status) :
    KeepsStatusOrADR s o := ⟨u, e, .inl hu⟩

/-- What a checked operation does: complete with the status as it was, or raise ADR (R231, R235). -/
theorem keepsStatusOrADR_of_next_or_raise {s u : State} {o : Outcome}
    (h : o = .next u ∨ o = .next { s with status := .ADR }) (hu : u.status = s.status) : KeepsStatusOrADR s o := by
  rcases h with e | e
  · exact keepsStatusOrADR_of_next e hu
  · exact ⟨_, e, .inr rfl⟩

theorem jumpIf_keepsStatusOrADR (c : CondCode) (d : Word) (s : State) : KeepsStatusOrADR s (jumpIf c d s) := by
  rcases jumpIf_cases s c d with ⟨-, e⟩ | ⟨-, -, e⟩ | ⟨-, -, e⟩
  · exact keepsStatusOrADR_of_next e rfl
  · exact keepsStatusOrADR_of_next e rfl
  · exact ⟨_, e, .inr rfl⟩

/-- R230: an instruction other than halt completes with the status as it was, or raises ADR. -/
theorem exec_keepsStatusOrADR {i : Instr} (hi : i ≠ .halt) (s : State) : KeepsStatusOrADR s (exec i s) := by
  cases i
  case halt => exact absurd rfl hi
  case nop | irmovl => exact keepsStatusOrADR_of_next rfl rfl
  case rrmovl | cmovle | cmovl | cmove | cmovne | cmovge | cmovg => exact keepsStatusOrADR_of_next (moveIf_eq ..) rfl
  case addl | subl | andl | xorl => exact keepsStatusOrADR_of_next (aluReg_eq ..) rfl
  case iaddl | isubl | iandl | ixorl => exact keepsStatusOrADR_of_next (aluImm_eq ..) rfl
  case jmp d | jle d | jl d | je d | jne d | jge d | jg d =>
    simp only [exec_jmp, exec_jle, exec_jl, exec_je, exec_jne, exec_jge, exec_jg]
    exact jumpIf_keepsStatusOrADR _ d s
  case rmmovl a b v => exact keepsStatusOrADR_of_next_or_raise ((rmmovl_cases s a b v).imp And.right And.right) rfl
  case mrmovl a b v => exact keepsStatusOrADR_of_next_or_raise ((mrmovl_cases s a b v).imp And.right And.right) rfl
  case pushl a => exact keepsStatusOrADR_of_next_or_raise ((pushl_cases s a).imp And.right And.right) rfl
  case popl a => exact keepsStatusOrADR_of_next_or_raise ((popl_cases s a).imp And.right And.right) rfl
  case call d => exact keepsStatusOrADR_of_next_or_raise ((call_cases s d).imp (And.right ∘ And.right) And.right) rfl
  case ret => exact keepsStatusOrADR_of_next_or_raise ((ret_cases s).imp (And.right ∘ And.right) And.right) rfl

/-- From a running state only halt ends in HLT. -/
theorem eq_halt_of_exec_status_HLT {i : Instr} {s t : State} (hs : s.status = .AOK) (h : exec i s = .next t)
    (ht : t.status = .HLT) : i = .halt := by
  by_contra hi
  obtain ⟨u, hu, hstatus⟩ := exec_keepsStatusOrADR hi s
  cases hu.symm.trans h
  simp [ht, hs] at hstatus

/-- R111: a fetchable window that decodes is counted and executed. -/
theorem iteration_of_decode {s : State} {i : Instr} (hf : s.canFetch = true) (hd : decode (fetchWindow s) = .ok i) :
    iteration s = exec i (countStep s) := by
  simp [iteration, hf, hd]

/-- An iteration that ends in HLT has fetched and decoded halt: the fetch check raises ADR, the decoder INS. -/
theorem decode_eq_halt_of_iteration_status_HLT {s t : State} (hs : s.status = .AOK) (h : iteration s = .next t)
    (ht : t.status = .HLT) : s.canFetch = true ∧ decode (fetchWindow s) = .ok .halt := by
  rcases iteration_cases s with ⟨-, e⟩ | ⟨_, -, -, e⟩ | ⟨i, hf, hd, e⟩
  · cases e.symm.trans h
    cases ht
  · cases e.symm.trans h
    cases ht
  · obtain rfl : i = .halt := eq_halt_of_exec_status_HLT (s := countStep s) hs (e.symm.trans h) ht
    exact ⟨hf, hd⟩

/-- Settles O13: an iteration of a running machine ends in HLT exactly when it executes halt, and byte 0 alone makes a
window halt. -/
theorem hltIsRaisedByHaltAlone : Obligations.HLTIsRaisedByHaltAlone := by
  intro s hs hl
  rw [step_of_running hs hl, ← decode_eq_halt_iff]
  constructor
  · rintro ⟨t, h, ht⟩
    exact decode_eq_halt_of_iteration_status_HLT hs h ht
  · rintro ⟨hf, hd⟩
    exact ⟨{ countStep s with status := .HLT }, iteration_of_decode hf hd, rfl⟩

end Sys2Proof.Machine
end

section
/-! Decoding and encoding as inverses (O1, O2): a window decodes to an instruction exactly when it has the instruction's
opcode byte and its operands. -/

namespace Sys2Proof

open Sys2Proof.Machine

/-- The decode temporaries hold the operands of an instruction, a "none" field included (R84, R86, R88). -/
def OperandsIn (f : Fields) : Instr → Prop
  | .halt | .nop | .ret => True
  | .rrmovl a b | .cmovle a b | .cmovl a b | .cmove a b | .cmovne a b | .cmovge a b | .cmovg a b
  | .addl a b | .subl a b | .andl a b | .xorl a b => f.rA = a.field ∧ f.rB = b.field
  | .rmmovl a b v | .mrmovl a b v => f.rA = a.field ∧ f.rB = b.field ∧ f.val = v
  | .irmovl b v | .iaddl b v | .isubl b v | .iandl b v | .ixorl b v => f.rA = 0xF#4 ∧ f.rB = b.field ∧ f.val = v
  | .jmp d | .jle d | .jl d | .je d | .jne d | .jge d | .jg d | .call d => f.dest = d
  | .pushl a | .popl a => f.rA = a.field ∧ f.rB = 0xF#4

/-! What a decoder helper accepts has its operands in the temporaries. -/

theorem operandsIn_of_twoRegisters {f : Fields} {mk : Reg → Reg → Instr} {i : Instr} (h : twoRegisters f mk = .ok i)
    (hmk : ∀ a b, f.rA = a.field → f.rB = b.field → OperandsIn f (mk a b)) : OperandsIn f i := by
  obtain ⟨a, b, hA, hB, rfl⟩ := (twoRegisters_ok_iff f mk i).mp h
  exact hmk a b hA hB

theorem operandsIn_of_noneThenRegister {f : Fields} {mk : Reg → Instr} {i : Instr}
    (h : noneThenRegister f mk = .ok i) (hmk : ∀ b, f.rA = 0xF#4 → f.rB = b.field → OperandsIn f (mk b)) :
    OperandsIn f i := by
  obtain ⟨b, hA, hB, rfl⟩ := (noneThenRegister_ok_iff f mk i).mp h
  exact hmk b hA hB

theorem operandsIn_of_registerThenNone {f : Fields} {mk : Reg → Instr} {i : Instr}
    (h : registerThenNone f mk = .ok i) (hmk : ∀ a, f.rA = a.field → f.rB = 0xF#4 → OperandsIn f (mk a)) :
    OperandsIn f i := by
  obtain ⟨a, hA, hB, rfl⟩ := (registerThenNone_ok_iff f mk i).mp h
  exact hmk a hA hB

theorem operandsIn_of_decodeMove {f : Fields} {i : Instr} (h : decodeMove f = .ok i) : OperandsIn f i := by
  unfold decodeMove at h
  split at h
  case h_8 => cases h
  all_goals exact operandsIn_of_twoRegisters h fun _ _ hA hB => ⟨hA, hB⟩

theorem operandsIn_of_decodeAluReg {f : Fields} {i : Instr} (h : decodeAluReg f = .ok i) : OperandsIn f i := by
  unfold decodeAluReg at h
  split at h
  case h_5 => cases h
  all_goals exact operandsIn_of_twoRegisters h fun _ _ hA hB => ⟨hA, hB⟩

theorem operandsIn_of_decodeJump {f : Fields} {i : Instr} (h : decodeJump f = .ok i) : OperandsIn f i := by
  unfold decodeJump at h
  split at h <;> cases h <;> exact rfl

theorem operandsIn_of_decodeAluImm {f : Fields} {i : Instr} (h : decodeAluImm f = .ok i) : OperandsIn f i := by
  unfold decodeAluImm at h
  split at h
  case h_5 => cases h
  all_goals exact operandsIn_of_noneThenRegister h fun _ hA hB => ⟨hA, hB, rfl⟩

/-- The decoder drops no operand. -/
theorem operandsIn_of_decodeFields {f : Fields} {i : Instr} (h : decodeFields f = .ok i) : OperandsIn f i := by
  unfold decodeFields at h
  split at h
  case h_3 => exact operandsIn_of_decodeMove h
  case h_7 => exact operandsIn_of_decodeAluReg h
  case h_8 => exact operandsIn_of_decodeJump h
  case h_13 => exact operandsIn_of_decodeAluImm h
  case h_14 => cases h
  all_goals replace h := ((onlyFunctionZero_ok_iff ..).mp h).2
  case h_4 => exact operandsIn_of_noneThenRegister h fun _ hA hB => ⟨hA, hB, rfl⟩
  case h_5 | h_6 => exact operandsIn_of_twoRegisters h fun _ _ hA hB => ⟨hA, hB, rfl⟩
  case h_11 | h_12 => exact operandsIn_of_registerThenNone h fun _ hA hB => ⟨hA, hB⟩
  case h_1 | h_2 | h_10 => cases h; trivial
  case h_9 => cases h; exact rfl

theorem twoRegisters_of_field {f : Fields} {a b : Reg} (mk : Reg → Reg → Instr) (hA : f.rA = a.field)
    (hB : f.rB = b.field) : twoRegisters f mk = .ok (mk a b) :=
  (twoRegisters_ok_iff ..).mpr ⟨a, b, hA, hB, rfl⟩

theorem noneThenRegister_of_field {f : Fields} {b : Reg} (mk : Reg → Instr) (hA : f.rA = 0xF#4)
    (hB : f.rB = b.field) : noneThenRegister f mk = .ok (mk b) :=
  (noneThenRegister_ok_iff ..).mpr ⟨b, hA, hB, rfl⟩

theorem registerThenNone_of_field {f : Fields} {a : Reg} (mk : Reg → Instr) (hA : f.rA = a.field)
    (hB : f.rB = 0xF#4) : registerThenNone f mk = .ok (mk a) :=
  (registerThenNone_ok_iff ..).mpr ⟨a, hA, hB, rfl⟩

/-- Opcode byte and operands determine what the temporaries decode to. -/
theorem decodeFields_of_operandsIn {f : Fields} {i : Instr} (ho : nibbles f.icls f.ifun = i.opcode)
    (hi : OperandsIn f i) : decodeFields f = .ok i := by
  have hc : f.icls = highNibble i.opcode := by rw [← ho, highNibble_nibbles]
  have hn : f.ifun = lowNibble i.opcode := by rw [← ho, lowNibble_nibbles]
  cases i
  all_goals simp only [decodeFields, onlyFunctionZero, decodeMove, decodeAluReg, decodeJump, decodeAluImm, hc, hn,
    Instr.opcode, encode, encodeOR, encodeOD, encodeORV, List.headD_cons, highNibble, lowNibble,
    BitVec.reduceExtractLsb', BitVec.reduceToNat, ↓reduceIte]
  case jmp | jle | jl | je | jne | jge | jg | call => exact congrArg _ (congrArg _ hi)
  case rrmovl | cmovle | cmovl | cmove | cmovne | cmovge | cmovg | addl | subl | andl | xorl =>
    obtain ⟨hA, hB⟩ := hi
    exact twoRegisters_of_field _ hA hB
  case rmmovl | mrmovl =>
    obtain ⟨hA, hB, rfl⟩ := hi
    exact twoRegisters_of_field _ hA hB
  case irmovl | iaddl | isubl | iandl | ixorl =>
    obtain ⟨hA, hB, rfl⟩ := hi
    exact noneThenRegister_of_field _ hA hB
  case pushl | popl =>
    obtain ⟨hA, hB⟩ := hi
    exact registerThenNone_of_field _ hA hB

/-- What a window decodes to: its opcode byte and its operands are the instruction's, and nothing else counts (D15). -/
theorem decode_ok_iff (w : Window) (i : Instr) : decode w = .ok i ↔ w.b0 = i.opcode ∧ OperandsIn w.fields i := by
  constructor
  · exact fun h => ⟨(decode_opcode h).symm, operandsIn_of_decodeFields h⟩
  · rintro ⟨ho, hi⟩
    exact decodeFields_of_operandsIn ((nibbles_of_byte w.b0).trans ho) hi

/-! ### The window of an encoding -/

/-- The opcode byte of an encoding stands first. -/
theorem ofBytes_encode_b0 (i : Instr) (tail : List Byte) : (Window.ofBytes (encode i ++ tail)).b0 = i.opcode := by
  cases i <;> rfl

theorem fields_of_register_byte {w : Window} {x y : BitVec 4} (h : w.b1 = nibbles x y) :
    w.fields.rA = x ∧ w.fields.rB = y := by
  simp [Window.fields, h]

/-- The register byte and the four value bytes of a window are read back. -/
theorem fields_of_register_and_value_bytes (o : Byte) (x y : BitVec 4) (v : Word) (tail : List Byte) :
    (Window.ofBytes (encodeORV o x y v ++ tail)).fields.rA = x ∧
    (Window.ofBytes (encodeORV o x y v ++ tail)).fields.rB = y ∧
    (Window.ofBytes (encodeORV o x y v ++ tail)).fields.val = v :=
  ⟨highNibble_nibbles x y, lowNibble_nibbles x y, decodeLE_byteOf v⟩

/-- The window of an encoding holds the operands, whatever follows. -/
theorem operandsIn_ofBytes_encode (i : Instr) (tail : List Byte) :
    OperandsIn (Window.ofBytes (encode i ++ tail)).fields i := by
  cases i
  case halt | nop | ret => trivial
  case jmp d | jle d | jl d | je d | jne d | jge d | jg d | call d => exact decodeLE_byteOf d
  case rrmovl | cmovle | cmovl | cmove | cmovne | cmovge | cmovg | addl | subl | andl | xorl | pushl | popl =>
    exact fields_of_register_byte rfl
  case irmovl | rmmovl | mrmovl | iaddl | isubl | iandl | ixorl => exact fields_of_register_and_value_bytes ..

/-- Settles O1: an encoding begins with its opcode byte and holds its operands, and that is all decoding asks for. -/
theorem decodeInvertsEncode : Obligations.DecodeInvertsEncode := fun i tail =>
  (decode_ok_iff _ i).mpr ⟨ofBytes_encode_b0 i tail, operandsIn_ofBytes_encode i tail⟩

/-! ### The bytes of a decoded window -/

theorem nibbles_fields (w : Window) : nibbles w.fields.rA w.fields.rB = w.b1 := nibbles_of_byte w.b1

theorem encodeLE_dest (w : Window) : encodeLE w.fields.dest = [w.b1, w.b2, w.b3, w.b4] := encodeLE_decodeLE ..

theorem encodeLE_val (w : Window) : encodeLE w.fields.val = [w.b2, w.b3, w.b4, w.b5] := encodeLE_decodeLE ..

/-- An instruction with a window's opcode byte and operands encodes to the window's first bytes. -/
theorem encode_eq_take {w : Window} {i : Instr} (ho : w.b0 = i.opcode) (hi : OperandsIn w.fields i) :
    encode i = w.bytes.take (encode i).length := by
  cases i
  case halt | nop | ret => exact congrArg (fun b => [b]) ho.symm
  case jmp | jle | jl | je | jne | jge | jg | call =>
    obtain rfl : w.fields.dest = _ := hi
    exact congr (congrArg List.cons ho.symm) (encodeLE_dest w)
  case rrmovl | cmovle | cmovl | cmove | cmovne | cmovge | cmovg | addl | subl | andl | xorl | pushl | popl =>
    obtain ⟨hA, hB⟩ := hi
    have h1 := nibbles_fields w
    rw [hA, hB] at h1
    exact congrArg₂ (fun b c => [b, c]) ho.symm h1
  case irmovl | rmmovl | mrmovl | iaddl | isubl | iandl | ixorl =>
    obtain ⟨hA, hB, rfl⟩ := hi
    have h1 := nibbles_fields w
    rw [hA, hB] at h1
    exact congr (congrArg₂ (fun b c bs => b :: c :: bs) ho.symm h1) (encodeLE_val w)

theorem opcodeTable_length_mem : ∀ row ∈ opcodeTable, row.length ∈ [1, 2, 5, 6] := by decide

/-- R82: the four lengths of an instruction. -/
theorem encode_length_mem (i : Instr) : (encode i).length ∈ [1, 2, 5, 6] := by
  obtain ⟨row, hrow, -, -, hlength⟩ := exists_row_of_instr i
  exact hlength ▸ opcodeTable_length_mem row hrow

/-- Settles O2: a decoded window has the instruction's opcode byte and operands, and they fill its first bytes. -/
theorem decodedWindowReencodesToItsOwnBytes : Obligations.DecodedWindowReencodesToItsOwnBytes := by
  intro w i h
  obtain ⟨ho, hi⟩ := (decode_ok_iff w i).mp h
  exact ⟨encode_eq_take ho hi, encode_length_mem i⟩

/-- Settles O5: each word is decoded. -/
theorem specExampleWordsDecode : Obligations.SpecExampleWordsDecode := by
  unfold Obligations.SpecExampleWordsDecode
  decide

end Sys2Proof
end

section
/-! R90's list of illegal encodings against the decoder (for O4): it is every window that is not well-formed. -/

namespace Sys2Proof

open Sys2Proof.Machine

/-- `valid(r)` of R86 as a number. -/
theorem register_admits_iff (r : BitVec 4) : FieldKind.register.admits r = true ↔ r.toNat < 8 :=
  (exists_field_iff r).symm.trans (exists_field_iff_toNat_lt r)

/-- `none(r)` of R86 as a number. -/
theorem absent_admits_iff_toNat (r : BitVec 4) : FieldKind.absent.admits r = true ↔ r.toNat = 15 :=
  (absent_admits_iff r).trans BitVec.toNat_inj.symm

theorem ignored_admits (r : BitVec 4) : FieldKind.ignored.admits r = true := rfl

/-- Well-formedness of a window over the same four numbers as R90's table. -/
theorem wellFormed_fields_iff (w : Window) : w.fields.wellFormed = true ↔
    w.b0.toNat % 16 < functionCount (w.b0.toNat / 16) ∧
    (fieldKinds (w.b0.toNat / 16)).1.admits w.fields.rA = true ∧
    (fieldKinds (w.b0.toNat / 16)).2.admits w.fields.rB = true := by
  rw [← lowNibble_toNat, ← highNibble_toNat]
  simp only [Fields.wellFormed, Bool.and_eq_true, decide_eq_true_eq, and_assoc]
  rfl

/-- R90's table, one class after the other, lists what R86 and R87 do not admit. -/
theorem illegalEncoding_iff_not_wellFormed (w : Window) :
    IllegalEncoding w.b0 w.b1 ↔ ¬ w.fields.wellFormed = true := by
  have hA : w.fields.rA.toNat = w.b1.toNat / 16 := highNibble_toNat w.b1
  have hB : w.fields.rB.toNat = w.b1.toNat % 16 := lowNibble_toNat w.b1
  have hclass : w.b0.toNat / 16 < 16 := by omega
  rw [wellFormed_fields_iff, IllegalEncoding]
  generalize w.b0.toNat / 16 = c at hclass ⊢
  interval_cases c
  all_goals
    simp [functionCount, fieldKinds, register_admits_iff, absent_admits_iff_toNat, ignored_admits, hA, hB]
  all_goals omega

end Sys2Proof
end

section
/-! What one instruction can do, said once: under its address condition it raises ADR and nothing else, halt raises HLT,
and in every other case it completes (O26, O25). -/

namespace Sys2Proof.Machine

/-! ### The address conditions as failed bounds checks -/

theorem badTarget_iff (s : State) (t : Word) : BadTarget s t ↔ fetchOK s.memSize t.toInt = false := by
  rw [← Bool.not_eq_true, fetchOK_iff, BadTarget]
  omega

theorem badWord_iff (s : State) (a : Word) : BadWord s a ↔ wordOK s.memSize a.toInt = false := by
  rw [← Bool.not_eq_true, wordOK_iff, BadWord]
  omega

theorem badPush_iff (s : State) : BadPush s ↔ pushOK s.memSize (s.reg .esp).toInt = false := by
  rw [← Bool.not_eq_true, pushOK_iff, BadPush]
  omega

theorem badPop_iff (s : State) : BadPop s ↔ popOK s.memSize (s.reg .esp).toInt = false := by
  rw [← Bool.not_eq_true, popOK_iff, BadPop]
  omega

/-- A word inside memory lies there with all its four bytes. -/
theorem toNat_add_four_le_of_wordOK {n : Nat} {a : Word} (h : wordOK n a.toInt = true) : a.toNat + 4 ≤ n := by
  obtain ⟨h0, h1⟩ := wordOK_iff.mp h
  have := toNat_of_nonneg h0
  omega

/-- The pushed word lies inside memory with all its four bytes. -/
theorem toNat_sub_four_add_four_le_of_pushOK {n : Nat} {e : Word} (h : pushOK n e.toInt = true) :
    (e - 4).toNat + 4 ≤ n := by
  obtain ⟨h0, h1⟩ := pushOK_iff.mp h
  obtain ⟨he, h4⟩ := toNat_sub_four h0
  have := toNat_of_nonneg (v := e) (by omega)
  omega

/-! ### Completion -/

/-- `t` is what a completed instruction leaves of `s`: another set of registers and flags, a pc that has advanced or has
been set to a checked target, and memory as it was but for a word inside it at the store address (R51, R115, R190). -/
structure Completes (s : State) (i : Instr) (t : State) : Prop where
  status : t.status = s.status
  stepCount : t.stepCount = s.stepCount
  memSize : t.memSize = s.memSize
  maxSteps : t.maxSteps = s.maxSteps
  pc : (∃ n ≤ 6, t.pc = s.pc + BitVec.ofNat 32 n) ∨ fetchOK s.memSize t.pc.toInt = true
  mem : t.mem = s.mem ∨
    ∃ a v, storeAddress s i = some a ∧ a + 4 ≤ s.memSize ∧ t.mem = Memory.writeWord s.mem a v

/-- What an instruction with the address condition `c` does (R231, R235). -/
def CompletesUnless (c : Prop) (i : Instr) (s : State) : Prop :=
  (c ∧ exec i s = .next { s with status := .ADR }) ∨ (¬ c ∧ ∃ t, exec i s = .next t ∧ Completes s i t)

section
variable {s t : State} {i : Instr}

/-- An advance of pc after an update of registers and flags. -/
theorem Completes.of_regs_flags (i : Instr) (s : State) (regs : Vector Word 8) (flags : Flags) {n : Nat} (hn : n ≤ 6) :
    Completes s i (advance n { s with regs := regs, flags := flags }) where
  status := rfl
  stepCount := rfl
  memSize := rfl
  maxSteps := rfl
  pc := .inl ⟨n, hn, rfl⟩
  mem := .inl rfl

/-- An advance of pc after a store of a word that lies inside memory. -/
theorem Completes.of_store {a : Nat} (ha : storeAddress s i = some a) (hin : a + 4 ≤ s.memSize) (v : Word)
    (regs : Vector Word 8) {n : Nat} (hn : n ≤ 6) :
    Completes s i (advance n ({ s with regs := regs }.setWord a v)) where
  status := rfl
  stepCount := rfl
  memSize := rfl
  maxSteps := rfl
  pc := .inl ⟨n, hn, rfl⟩
  mem := .inr ⟨a, v, ha, hin, rfl⟩

/-- A checked transfer. -/
theorem Completes.of_target (i : Instr) (s : State) (regs : Vector Word 8) {d : Word}
    (hd : fetchOK s.memSize d.toInt = true) : Completes s i { s with regs := regs, pc := d } where
  status := rfl
  stepCount := rfl
  memSize := rfl
  maxSteps := rfl
  pc := .inr hd
  mem := .inl rfl

theorem completesUnless_False (e : exec i s = .next t) (h : Completes s i t) : CompletesUnless False i s :=
  .inr ⟨not_false, t, e, h⟩

theorem completesUnless_of_cause {c : Prop} (hc : c) (e : exec i s = .next { s with status := .ADR }) :
    CompletesUnless c i s := .inl ⟨hc, e⟩

theorem completesUnless_of_completes {c : Prop} (hc : ¬ c) (e : exec i s = .next t) (h : Completes s i t) :
    CompletesUnless c i s := .inr ⟨hc, t, e, h⟩

end

/-! ### The families with an address condition -/

/-- R191: a jump's address condition is that it is taken and its target is bad. -/
theorem completesUnless_of_jumpIf {i : Instr} {s : State} {k : CondCode} {d : Word} (e : exec i s = jumpIf k d s) :
    CompletesUnless (condHolds k s.flags = true ∧ BadTarget s d) i s := by
  rw [badTarget_iff]
  rcases jumpIf_cases s k d with ⟨hk, e'⟩ | ⟨-, hd, e'⟩ | ⟨hk, hd, e'⟩
  · exact completesUnless_of_completes (by simp [hk]) (e.trans e') (.of_regs_flags i s s.regs s.flags (by omega))
  · exact completesUnless_of_completes (by simp [hd]) (e.trans e') (.of_target i s s.regs hd)
  · exact completesUnless_of_cause ⟨hk, hd⟩ (e.trans e')

theorem rmmovl_completesUnless (a b : Reg) (v : Word) (s : State) :
    CompletesUnless (BadWord s (effectiveAddress s b v)) (.rmmovl a b v) s := by
  rw [badWord_iff]
  rcases rmmovl_cases s a b v with ⟨h, e⟩ | ⟨h, e⟩
  · exact completesUnless_of_completes (by simp [h]) e
      (.of_store rfl (toNat_add_four_le_of_wordOK h) (s.reg a) s.regs (by omega))
  · exact completesUnless_of_cause h e

theorem mrmovl_completesUnless (a b : Reg) (v : Word) (s : State) :
    CompletesUnless (BadWord s (effectiveAddress s b v)) (.mrmovl a b v) s := by
  rw [badWord_iff]
  rcases mrmovl_cases s a b v with ⟨h, e⟩ | ⟨h, e⟩
  · exact completesUnless_of_completes (by simp [h]) e (.of_regs_flags _ s _ s.flags (by omega))
  · exact completesUnless_of_cause h e

theorem pushl_completesUnless (a : Reg) (s : State) : CompletesUnless (BadPush s) (.pushl a) s := by
  rw [badPush_iff]
  rcases pushl_cases s a with ⟨h, e⟩ | ⟨h, e⟩
  · exact completesUnless_of_completes (by simp [h]) e
      (.of_store rfl (toNat_sub_four_add_four_le_of_pushOK h) (s.reg a) _ (by omega))
  · exact completesUnless_of_cause h e

theorem popl_completesUnless (a : Reg) (s : State) : CompletesUnless (BadPop s) (.popl a) s := by
  rw [badPop_iff]
  rcases popl_cases s a with ⟨h, e⟩ | ⟨h, e⟩
  · exact completesUnless_of_completes (by simp [h]) e (.of_regs_flags _ s _ s.flags (by omega))
  · exact completesUnless_of_cause h e

theorem call_completesUnless (d : Word) (s : State) : CompletesUnless (BadTarget s d ∨ BadPush s) (.call d) s := by
  rw [badTarget_iff, badPush_iff]
  rcases call_cases s d with ⟨hd, hp, e⟩ | ⟨h, e⟩
  · have completes : Completes s (.call d) { pushed s (s.pc + 5) with pc := d } :=
      { status := rfl, stepCount := rfl, memSize := rfl, maxSteps := rfl, pc := .inr hd,
        mem := .inr ⟨_, _, rfl, toNat_sub_four_add_four_le_of_pushOK hp, rfl⟩ }
    exact completesUnless_of_completes (by simp [hd, hp]) e completes
  · exact completesUnless_of_cause h e

theorem ret_completesUnless (s : State) :
    CompletesUnless (BadPop s ∨ BadTarget s (s.word (s.reg .esp).toNat)) .ret s := by
  rw [badPop_iff, badTarget_iff]
  rcases ret_cases s with ⟨hp, hd, e⟩ | ⟨h, e⟩
  · exact completesUnless_of_completes (by simp [hp, hd]) e (.of_target _ s _ hd)
  · exact completesUnless_of_cause h e

/-- Every instruction but halt completes exactly without its address condition, and raises ADR alone under it. -/
theorem exec_completesUnless {i : Instr} (hi : i ≠ .halt) (s : State) : CompletesUnless (AddressCause s i) i s := by
  cases i
  case halt => exact absurd rfl hi
  case nop => exact completesUnless_False rfl (.of_regs_flags _ s s.regs s.flags (by omega))
  case irmovl => exact completesUnless_False rfl (.of_regs_flags _ s _ s.flags (by omega))
  case rrmovl | cmovle | cmovl | cmove | cmovne | cmovge | cmovg =>
    exact completesUnless_False (moveIf_eq ..) (.of_regs_flags _ s _ s.flags (by omega))
  case addl | subl | andl | xorl => exact completesUnless_False (aluReg_eq ..) (.of_regs_flags _ s _ _ (by omega))
  case iaddl | isubl | iandl | ixorl => exact completesUnless_False (aluImm_eq ..) (.of_regs_flags _ s _ _ (by omega))
  case jmp d => simpa [condHolds, AddressCause] using completesUnless_of_jumpIf (exec_jmp s d)
  case jle d => simpa [condHolds, AddressCause] using completesUnless_of_jumpIf (exec_jle s d)
  case jl d => simpa [condHolds, AddressCause] using completesUnless_of_jumpIf (exec_jl s d)
  case je d => simpa [condHolds, AddressCause] using completesUnless_of_jumpIf (exec_je s d)
  case jne d => simpa [condHolds, AddressCause] using completesUnless_of_jumpIf (exec_jne s d)
  case jge d => simpa [condHolds, AddressCause] using completesUnless_of_jumpIf (exec_jge s d)
  case jg d => simpa [condHolds, AddressCause] using completesUnless_of_jumpIf (exec_jg s d)
  case rmmovl a b v => exact rmmovl_completesUnless a b v s
  case mrmovl a b v => exact mrmovl_completesUnless a b v s
  case pushl a => exact pushl_completesUnless a s
  case popl a => exact popl_completesUnless a s
  case call d => exact call_completesUnless d s
  case ret => exact ret_completesUnless s

/-- The three ways of one instruction. -/
theorem exec_cases (i : Instr) (s : State) :
    (AddressCause s i ∧ exec i s = .next { s with status := .ADR }) ∨
    (i = .halt ∧ exec i s = .next { s with status := .HLT }) ∨
    (¬ AddressCause s i ∧ ∃ t, exec i s = .next t ∧ Completes s i t) := by
  by_cases hi : i = .halt
  · subst hi
    exact .inr (.inl ⟨rfl, rfl⟩)
  · exact (exec_completesUnless hi s).imp_right .inr

/-- Settles O26: halt has no address condition, and every other instruction completes unless its own holds. -/
theorem instructionsCompleteExactlyWithoutAnAddressCause :
    Obligations.InstructionsCompleteExactlyWithoutAnAddressCause := by
  intro i s
  rcases exec_cases i s with ⟨hc, e⟩ | ⟨rfl, -⟩ | ⟨hc, t, e, ht⟩
  · exact ⟨fun _ => e, fun h => absurd hc h⟩
  · exact ⟨False.elim, fun _ h => absurd rfl h⟩
  · exact ⟨fun h => absurd h hc, fun _ _ => ⟨t, e, ht.status⟩⟩

/-- Settles O25: an instruction either leaves the memory list as it is or writes one word at its store address. -/
theorem memoryChangesOnlyAtTheStoreAddress : Obligations.MemoryChangesOnlyAtTheStoreAddress := by
  intro i s t hm h x hx
  have read : Memory.read t.mem x = Memory.read s.mem x := by
    rcases exec_cases i s with ⟨-, e⟩ | ⟨-, e⟩ | ⟨-, u, e, hu⟩ <;> cases e.symm.trans h
    · rfl
    · rfl
    · rcases hu.mem with hmem | ⟨a, v, ha, -, hmem⟩
      · rw [hmem]
      · rw [hmem, Memory.read_writeWord_outside hm v (hx a ha)]
  exact read

end Sys2Proof.Machine
end

section
/-! The invariant (O17 to O19): kept by what a completed instruction does, then by the step and the moves of the outside. -/

namespace Sys2Proof.Machine

variable {s t : State}

/-- The invariant looks at pc, memory, the counter and the two parameters alone. -/
theorem StateInv.of_same (h : StateInv s) (hpc : t.pc = s.pc) (hmem : t.mem = s.mem)
    (hcount : t.stepCount = s.stepCount) (hsize : t.memSize = s.memSize) (hmax : t.maxSteps = s.maxSteps) :
    StateInv t := by
  obtain ⟨legal, pcInside, canonical, inside, budget⟩ := h
  constructor
  · rwa [hsize]
  · rwa [hpc, hsize]
  · rwa [hmem]
  · rwa [hsize, hmem]
  · rwa [hmax, hcount]

/-- R119: while the budget is not used up, one more iteration stays within it. -/
theorem stateInv_countStep (h : StateInv s) (hl : s.limitReached = false) : StateInv (countStep s) where
  legal := h.legal
  pcInside := h.pcInside
  memCanonical := h.memCanonical
  memInside := h.memInside
  budget := limitReached_false_iff.mp hl

/-- R29: behind a fetchable pc there are six bytes, so no advance leaves memory. -/
theorem pc_inside_of_advance {n : Nat} (hf : s.canFetch = true) (hlegal : Config.LegalMemSize s.memSize) (hn : n ≤ 6) :
    0 ≤ (s.pc + BitVec.ofNat 32 n).toInt ∧ (s.pc + BitVec.ofNat 32 n).toInt ≤ (s.memSize : Int) := by
  obtain ⟨h0, h1⟩ := fetchOK_iff.mp hf
  obtain ⟨-, hsize⟩ := hlegal
  rw [toInt_add_ofNat h0 (by omega)]
  omega

/-- A completed instruction keeps the invariant. -/
theorem Completes.stateInv {i : Instr} (ht : Completes s i t) (h : StateInv s) (hf : s.canFetch = true) :
    StateInv t := by
  constructor
  case legal => rw [ht.memSize]; exact h.legal
  case pcInside =>
    rw [ht.memSize]
    rcases ht.pc with ⟨n, hn, hpc⟩ | hpc
    · rw [hpc]; exact pc_inside_of_advance hf h.legal hn
    · obtain ⟨h0, h1⟩ := fetchOK_iff.mp hpc
      omega
  case memCanonical =>
    rcases ht.mem with hmem | ⟨a, v, -, -, hmem⟩ <;> rw [hmem]
    · exact h.memCanonical
    · exact Memory.wf_writeWord h.memCanonical a v
  case memInside =>
    rw [ht.memSize]
    rcases ht.mem with hmem | ⟨a, v, -, hin, hmem⟩ <;> rw [hmem]
    · exact h.memInside
    · exact Memory.below_writeWord hin h.memInside v
  case budget => rw [ht.maxSteps, ht.stepCount]; exact h.budget

theorem exec_stateInv {i : Instr} (h : StateInv s) (hf : s.canFetch = true) (he : exec i s = .next t) : StateInv t := by
  rcases exec_cases i s with ⟨-, e⟩ | ⟨-, e⟩ | ⟨-, u, e, hu⟩ <;> cases e.symm.trans he
  · exact h.of_same rfl rfl rfl rfl rfl
  · exact h.of_same rfl rfl rfl rfl rfl
  · exact hu.stateInv h hf

/-- Settles O17: an iteration raises a status, or counts and executes one instruction at a fetchable pc. -/
theorem stepKeepsInvariant : Obligations.StepKeepsInvariant := by
  intro s t h hstep
  obtain ⟨-, hl, hit⟩ := step_eq_next_iff.mp hstep
  rcases iteration_cases s with ⟨-, e⟩ | ⟨_, -, -, e⟩ | ⟨i, hf, -, e⟩ <;> replace hit := e.symm.trans hit
  · cases hit
    exact h.of_same rfl rfl rfl rfl rfl
  · cases hit
    exact (stateInv_countStep h hl).of_same rfl rfl rfl rfl rfl
  · exact exec_stateInv (stateInv_countStep h hl) hf hit

/-- Reset memory is empty and the reset pc is 0, inside every memory. -/
theorem stateInv_resetWith {size : Nat} (hsize : Config.LegalMemSize size) : StateInv (State.resetWith size) where
  legal := hsize
  pcInside := ⟨le_refl 0, Int.natCast_nonneg size⟩
  memCanonical := (reset_mem_wf size).1
  memInside := (reset_mem_wf size).2
  budget := fun _ h => nomatch h

/-- Settles O18: the size that State.reset carries is legal. -/
theorem resetSatisfiesInvariant : Obligations.ResetSatisfiesInvariant :=
  ⟨fun _ => stateInv_resetWith, stateInv_resetWith (by decide)⟩

theorem stateInv_runEntry (h : StateInv s) (limit : Option Nat) : StateInv (runEntry limit s) where
  legal := h.legal
  pcInside := ⟨le_refl 0, Int.natCast_nonneg s.memSize⟩
  memCanonical := h.memCanonical
  memInside := h.memInside
  budget := fun _ _ => Nat.zero_le _

/-- R69: the loader answers exactly when the buffer fits, and then the buffer has been written and nothing else. -/
theorem load_eq_some_iff {a : Nat} {bytes : List Byte} : load a bytes s = some t ↔
    a + bytes.length ≤ s.memSize ∧ t = { s with mem := Memory.writeBytes s.mem a bytes } := by
  unfold load
  by_cases h : a + bytes.length ≤ s.memSize <;> simp [h, eq_comm]

theorem load_eq_none_iff {a : Nat} {bytes : List Byte} : load a bytes s = none ↔ s.memSize < a + bytes.length := by
  unfold load
  by_cases h : a + bytes.length ≤ s.memSize
  · simp [h]
  · simp [h, Nat.lt_of_not_le h]

theorem stateInv_of_load {a : Nat} {bytes : List Byte} (h : StateInv s) (hload : load a bytes s = some t) :
    StateInv t := by
  obtain ⟨hfit, rfl⟩ := load_eq_some_iff.mp hload
  exact ⟨h.legal, h.pcInside, Memory.wf_writeBytes h.memCanonical a bytes,
    Memory.below_writeBytes bytes hfit h.memInside, h.budget⟩

/-- Settles O19, one move after the other. -/
theorem outsideMovesKeepInvariant : Obligations.OutsideMovesKeepInvariant := fun _ h =>
  ⟨stateInv_runEntry h, fun _ _ _ => stateInv_of_load h, stateInv_resetWith h.legal⟩

end Sys2Proof.Machine
end

section
/-! One step (O4, O7, O8, O12, O14 to O16, O20, O21): each way of an iteration, and what it says of the state before and
after it. -/

namespace Sys2Proof.Machine

variable {s t : State} {i : Instr}

/-! ### Before the step -/

theorem canFetch_iff : s.canFetch = true ↔ 0 ≤ s.pc.toInt ∧ s.pc.toInt ≤ (s.memSize : Int) - 6 := fetchOK_iff

theorem canFetch_eq_false_iff : s.canFetch = false ↔ s.pc.toInt < 0 ∨ (s.memSize : Int) - 6 < s.pc.toInt := by
  rw [← Bool.not_eq_true, canFetch_iff]
  omega

/-- R111 step 1. -/
theorem iteration_of_not_canFetch (hf : s.canFetch = false) : iteration s = .next { s with status := .ADR } := by
  simp [iteration, raise, hf]

/-- R111 step 3, R232. -/
theorem iteration_of_decode_error {e : Reject} (hf : s.canFetch = true) (hd : decode (fetchWindow s) = .error e) :
    iteration s = .next { countStep s with status := .INS } := by
  simp [iteration, raise, hf, hd]

/-- Settles O7: the premises are the loop condition, the fetch bound and the decoded window. -/
theorem stepRunsTheDecodedInstruction : Obligations.StepRunsTheDecodedInstruction := by
  intro s i hs hl h0 h1 hd
  rw [step_of_running hs (limitReached_false_iff.mpr hl)]
  exact iteration_of_decode (canFetch_iff.mpr ⟨h0, h1⟩) hd

/-- Settles O8: the premise is the negation of the fetch bound. -/
theorem unfetchablePcEndsInADRUncounted : Obligations.UnfetchablePcEndsInADRUncounted := by
  intro s hs hl hpc
  rw [step_of_running hs (limitReached_false_iff.mpr hl)]
  exact iteration_of_not_canFetch (canFetch_eq_false_iff.mpr (by omega))

/-- Settles O15: no instruction faults or is refused. -/
theorem runningMachineAlwaysHasASuccessor : Obligations.RunningMachineAlwaysHasASuccessor := step_exists_next

/-! ### The counter and the parameters -/

/-- No instruction reaches the step counter or the two parameters. -/
theorem exec_keeps_count_and_parameters (h : exec i s = .next t) :
    t.stepCount = s.stepCount ∧ t.memSize = s.memSize ∧ t.maxSteps = s.maxSteps := by
  obtain ⟨_, _, _, _, _, rfl⟩ := exec_shape h
  exact ⟨rfl, rfl, rfl⟩

/-- An iteration counts exactly when its fetch check passes, and keeps the two parameters. -/
theorem iteration_counts (h : iteration s = .next t) :
    t.stepCount = (if s.canFetch = true then s.stepCount + 1 else s.stepCount) ∧ t.memSize = s.memSize ∧
      t.maxSteps = s.maxSteps := by
  rcases iteration_cases s with ⟨hf, e⟩ | ⟨_, hf, -, e⟩ | ⟨i, hf, -, e⟩ <;> replace h := e.symm.trans h <;> rw [hf]
  · cases h; exact ⟨rfl, rfl, rfl⟩
  · cases h; exact ⟨rfl, rfl, rfl⟩
  · exact exec_keeps_count_and_parameters h

/-- Settles O16. -/
theorem noStepChangesTheParameters : Obligations.NoStepChangesTheParameters := by
  intro s t h
  obtain ⟨-, -, hit⟩ := step_eq_next_iff.mp h
  exact (iteration_counts hit).2

/-! ### A step into a terminal status -/

/-- No address condition looks at the status or the counter. -/
theorem addressCause_withStatus_withCount (s : State) (st : Status) (n : Nat) (i : Instr) :
    AddressCause { s with status := st, stepCount := n } i ↔ AddressCause s i := by
  cases i <;> exact Iff.rfl

theorem exec_of_addressCause (h : AddressCause s i) : exec i s = .next { s with status := .ADR } := by
  rcases exec_cases i s with ⟨-, e⟩ | ⟨rfl, -⟩ | ⟨hc, -⟩
  · exact e
  · exact absurd h not_false
  · exact absurd h hc

/-- The ways a step of a running machine ends the run (R117, R230 to R232): what it writes, and the cause. -/
theorem step_terminal_cases (h : step s = .next t) (ht : t.status ≠ .AOK) :
    (s.canFetch = false ∧ t = { s with status := .ADR }) ∨
    (∃ e, s.canFetch = true ∧ decode (fetchWindow s) = .error e ∧ t = { countStep s with status := .INS }) ∨
    (∃ i, s.canFetch = true ∧ decode (fetchWindow s) = .ok i ∧ AddressCause s i ∧
      t = { countStep s with status := .ADR }) ∨
    (s.canFetch = true ∧ decode (fetchWindow s) = .ok .halt ∧ t = { countStep s with status := .HLT }) := by
  obtain ⟨hs, -, hit⟩ := step_eq_next_iff.mp h
  rcases iteration_cases s with ⟨hf, e⟩ | ⟨r, hf, hd, e⟩ | ⟨i, hf, hd, e⟩ <;> replace hit := e.symm.trans hit
  · cases hit; exact .inl ⟨hf, rfl⟩
  · cases hit; exact .inr (.inl ⟨r, hf, hd, rfl⟩)
  · rcases exec_cases i (countStep s) with ⟨hc, e'⟩ | ⟨rfl, e'⟩ | ⟨-, u, e', hu⟩ <;> cases e'.symm.trans hit
    · exact .inr (.inr (.inl ⟨i, hf, hd, (addressCause_withStatus_withCount s _ _ i).mp hc, rfl⟩))
    · exact .inr (.inr (.inr ⟨hf, hd, rfl⟩))
    · exact absurd (hu.status.trans hs) ht

/-- Settles O12: each of the four ways writes the status, and the count in three of them. -/
theorem terminalStatusIsRaisedWithoutPartialEffects : Obligations.TerminalStatusIsRaisedWithoutPartialEffects := by
  intro s t h ht
  refine ⟨?_, fun u hu => ht (step_eq_next_iff.mp hu).1⟩
  rcases step_terminal_cases h ht with ⟨-, e⟩ | ⟨_, -, -, e⟩ | ⟨_, -, -, -, e⟩ | ⟨-, -, e⟩ <;> rw [e] <;> rfl

/-- Settles O14: of the four ways into a terminal status two are ADR, and each of the causes leads there. -/
theorem adrHasExactlyTheListedCauses : Obligations.ADRHasExactlyTheListedCauses := by
  intro s hs hl
  rw [← canFetch_eq_false_iff]
  constructor
  · rintro ⟨t, h, ht⟩
    rcases step_terminal_cases h (by simp [ht]) with ⟨hf, -⟩ | ⟨_, -, -, rfl⟩ | ⟨i, -, hd, hc, -⟩ | ⟨-, -, rfl⟩
    · exact .inl hf
    · cases ht
    · exact .inr ⟨i, hd, hc⟩
    · cases ht
  · rw [step_of_running hs hl]
    cases hf : s.canFetch with
    | false => exact fun _ => ⟨_, iteration_of_not_canFetch hf, rfl⟩
    | true =>
      rintro (h | ⟨i, hd, hc⟩)
      · cases h
      · have hc' : AddressCause (countStep s) i := (addressCause_withStatus_withCount s _ _ i).mpr hc
        exact ⟨_, (iteration_of_decode hf hd).trans (exec_of_addressCause hc'), rfl⟩

/-! ### Illegal encodings -/

/-- R90: the illegal encodings are what the decoder rejects. -/
theorem illegalEncoding_iff_decode_error (w : Window) : IllegalEncoding w.b0 w.b1 ↔ ∃ e, decode w = .error e := by
  rw [illegalEncoding_iff_not_wellFormed, ← decodeFields_isOk_iff_wellFormed, decode]
  cases decodeFields w.fields <;> simp

/-- R90's list is every window that no row of R89 selects. -/
theorem illegalEncoding_iff_no_row_selects (w : Window) :
    IllegalEncoding w.b0 w.b1 ↔ ∀ row ∈ opcodeTable, row.selects w = false := by
  rw [illegalEncoding_iff_not_wellFormed, ← decodeFields_isOk_iff_wellFormed, ← decode,
    decode_isOk_iff_exists_selects]
  simp

/-- Settles O4: the decoder rejects exactly R90's list, and INS is what a rejected window raises. -/
theorem illegalEncodingsAndOnlyTheyEndInINS : Obligations.IllegalEncodingsAndOnlyTheyEndInINS := by
  refine ⟨illegalEncoding_iff_no_row_selects, fun s hready => ?_⟩
  obtain ⟨hs, hl, hf⟩ := hready
  have raises (h : IllegalEncoding (fetchWindow s).b0 (fetchWindow s).b1) :
      step s = .next { s with status := .INS, stepCount := s.stepCount + 1 } := by
    obtain ⟨e, hd⟩ := (illegalEncoding_iff_decode_error _).mp h
    exact (step_of_running hs hl).trans (iteration_of_decode_error hf hd)
  refine ⟨⟨?_, fun h => ⟨_, raises h, rfl⟩⟩, raises⟩
  rintro ⟨t, h, ht⟩
  rw [illegalEncoding_iff_decode_error]
  rcases step_terminal_cases h (by simp [ht]) with ⟨-, rfl⟩ | ⟨e, -, hd, -⟩ | ⟨_, -, -, -, rfl⟩ | ⟨-, -, rfl⟩
  · cases ht
  · exact ⟨e, hd⟩
  · cases ht
  · cases ht

/-! ### The end of a run -/

/-- The state a run has ended in shows the cause itself: its pc, memory and registers are those before the last step. -/
theorem cause_of_terminal_step (h : step s = .next t) (ht : t.status ≠ .AOK) :
    (t.status = .HLT ∧ t.canFetch = true ∧ decode (fetchWindow t) = .ok .halt) ∨
    (t.status = .INS ∧ t.canFetch = true ∧ IllegalEncoding (fetchWindow t).b0 (fetchWindow t).b1) ∨
    (t.status = .ADR ∧ (t.canFetch = false ∨ ∃ i, decode (fetchWindow t) = .ok i ∧ AddressCause t i)) := by
  rcases step_terminal_cases h ht with ⟨hf, rfl⟩ | ⟨e, hf, hd, rfl⟩ | ⟨i, -, hd, hc, rfl⟩ | ⟨hf, hd, rfl⟩
  · exact .inr (.inr ⟨rfl, .inl hf⟩)
  · exact .inr (.inl ⟨rfl, hf, (illegalEncoding_iff_decode_error _).mpr ⟨e, hd⟩⟩)
  · exact .inr (.inr ⟨rfl, .inr ⟨i, hd, (addressCause_withStatus_withCount s _ _ i).mpr hc⟩⟩)
  · exact .inl ⟨rfl, hf, hd⟩

/-- Settles O20: a run that has ended has made a last step. -/
theorem endedRunPointsAtItsCause : Obligations.EndedRunPointsAtItsCause := by
  rintro s t hs ⟨hreach, ht⟩
  cases hreach with
  | refl => exact absurd hs ht
  | tail _ hlast => exact cause_of_terminal_step hlast ht

/-! ### A jump to itself -/

/-- R191: a fetchable unconditional jump to itself changes the count alone. -/
theorem step_of_jump_to_itself (hready : Ready s) (hd : decode (fetchWindow s) = .ok (.jmp s.pc)) :
    step s = .next (countStep s) := by
  obtain ⟨hs, hl, hf⟩ := hready
  have hjump : exec (.jmp s.pc) (countStep s) = .next (countStep s) := if_pos hf
  exact (step_of_running hs hl).trans ((iteration_of_decode hf hd).trans hjump)

/-- A run goes on with the state after its first step. -/
theorem run_succ_of_step (M : Host.Core) {s t : M.State} (h : M.step s = .next t) (n : Nat) :
    M.run (n + 1) s = M.run n t := by
  rw [Host.Core.run, h]

/-- Settles O21, by induction on the number of steps: the state after one step is again at a jump to itself. -/
theorem jumpToItselfNeverStops : Obligations.JumpToItselfNeverStops := by
  intro s hready hmax hd n
  induction n generalizing s with
  | zero => rfl
  | succ n ih =>
    have ⟨hs, _, hf⟩ := hready
    have hlimit : (countStep s).limitReached = false := limitReached_false_iff.mpr (by simp [hmax])
    have hready' : Ready (countStep s) := ⟨hs, hlimit, hf⟩
    refine (run_succ_of_step Sys2Proof.core (step_of_jump_to_itself hready hd) n).trans ?_
    refine (ih (countStep s) hready' hmax hd).trans ?_
    simp [countStep, Nat.add_assoc, Nat.add_comm 1 n]

end Sys2Proof.Machine
end

section
/-! What an instruction does not look at (O10, O11, O23, O24): a change of the state that an instruction neither reads
nor writes can be made before it or after it. -/

namespace Sys2Proof.Machine

/-- The change `f` touches nothing that `i` reads, and what `i` writes it leaves written. -/
structure Transparent (i : Instr) (f : State → State) : Prop where
  pc : ∀ s, (f s).pc = s.pc
  memSize : ∀ s, (f s).memSize = s.memSize
  word : ∀ s a, (f s).word a = s.word a
  reg : ∀ s, ∀ r ∈ uses i, (f s).reg r = s.reg r
  flags : readsFlags i = true → ∀ s, (f s).flags = s.flags
  setPc : ∀ s d, { f s with pc := d } = f { s with pc := d }
  setStatus : ∀ s st, { f s with status := st } = f { s with status := st }
  setWord : ∀ s a v, (f s).setWord a v = f (s.setWord a v)
  setReg : ∀ s, ∀ r ∈ uses i, ∀ v, (f s).setReg r v = f (s.setReg r v)
  setFlags : writesFlags i = true → ∀ s g, { f s with flags := g } = f { s with flags := g }

namespace Transparent

variable {i : Instr} {f : State → State}

theorem advance_comm (h : Transparent i f) (n : Nat) (s : State) : advance n (f s) = f (advance n s) := by
  rw [advance, h.pc, h.setPc]
  rfl

theorem raise_comm (h : Transparent i f) (st : Status) (s : State) :
    raise st (f s) = mapNext f (raise st s) := congrArg _ (h.setStatus s st)

theorem jumpTo_comm (h : Transparent i f) (d : Word) (s : State) :
    jumpTo d (f s) = mapNext f (jumpTo d s) := by
  unfold jumpTo
  rw [h.setPc, h.raise_comm, h.memSize]
  split <;> rfl

/-- A condition is read through the flags, and the condition of code 0 not even through them. -/
theorem jumpIf_comm (h : Transparent i f) {c : CondCode} (s : State)
    (hc : condHolds c (f s).flags = condHolds c s.flags) (d : Word) :
    jumpIf c d (f s) = mapNext f (jumpIf c d s) := by
  unfold jumpIf
  rw [hc, h.jumpTo_comm, h.advance_comm]
  split <;> rfl

theorem moveIf_comm (h : Transparent i f) {c : CondCode} (s : State)
    (hc : condHolds c (f s).flags = condHolds c s.flags) {a b : Reg} (ha : a ∈ uses i) (hb : b ∈ uses i) :
    moveIf c a b (f s) = mapNext f (moveIf c a b s) := by
  rw [moveIf_eq, moveIf_eq, hc, h.reg s a ha, h.reg s b hb, h.setReg s b hb, h.advance_comm]
  rfl

theorem alu_comm (h : Transparent i f) (hw : writesFlags i = true) {b : Reg} (hb : b ∈ uses i) (op : AluOp) (v : Word)
    (s : State) : alu op v b (f s) = f (alu op v b s) := by
  unfold alu
  rw [h.reg s b hb, h.setReg s b hb, h.setFlags hw]

theorem aluReg_comm (h : Transparent i f) (hw : writesFlags i = true) {a b : Reg} (ha : a ∈ uses i) (hb : b ∈ uses i)
    (op : AluOp) (s : State) : aluReg op a b (f s) = mapNext f (aluReg op a b s) := by
  rw [aluReg_eq, aluReg_eq, h.reg s a ha, h.alu_comm hw hb, h.advance_comm]
  rfl

theorem aluImm_comm (h : Transparent i f) (hw : writesFlags i = true) {b : Reg} (hb : b ∈ uses i) (op : AluOp)
    (v : Word) (s : State) : aluImm op b v (f s) = mapNext f (aluImm op b v s) := by
  rw [aluImm_eq, aluImm_eq, h.alu_comm hw hb, h.advance_comm]
  rfl

theorem effectiveAddress_eq (h : Transparent i f) {b : Reg} (hb : b ∈ uses i) (v : Word) (s : State) :
    effectiveAddress (f s) b v = effectiveAddress s b v := by
  rw [effectiveAddress, h.reg s b hb, effectiveAddress]

theorem rmmovl_comm (h : Transparent i f) {a b : Reg} (ha : a ∈ uses i) (hb : b ∈ uses i) (v : Word) (s : State) :
    execRmmovl a b v (f s) = mapNext f (execRmmovl a b v s) := by
  unfold execRmmovl
  rw [h.memSize, h.effectiveAddress_eq hb, h.reg s a ha, h.setWord, h.advance_comm, h.raise_comm]
  split <;> rfl

theorem mrmovl_comm (h : Transparent i f) {a b : Reg} (ha : a ∈ uses i) (hb : b ∈ uses i) (v : Word) (s : State) :
    execMrmovl a b v (f s) = mapNext f (execMrmovl a b v s) := by
  unfold execMrmovl
  rw [h.memSize, h.effectiveAddress_eq hb, h.word, h.setReg s a ha, h.advance_comm, h.raise_comm]
  split <;> rfl

theorem push_comm (h : Transparent i f) (hesp : .esp ∈ uses i) (v : Word) (s : State) :
    push v (f s) = (push v s).map f := by
  unfold push
  rw [h.memSize, h.reg s _ hesp, h.setReg s _ hesp, h.setWord]
  split <;> rfl

theorem pop_comm (h : Transparent i f) (hesp : .esp ∈ uses i) (s : State) :
    pop (f s) = (pop s).map (Prod.map id f) := by
  unfold pop
  rw [h.memSize, h.reg s _ hesp, h.setReg s _ hesp, h.word]
  split <;> rfl

theorem pushl_comm (h : Transparent i f) (hesp : .esp ∈ uses i) {a : Reg} (ha : a ∈ uses i) (s : State) :
    execPushl a (f s) = mapNext f (execPushl a s) := by
  unfold execPushl
  rw [h.reg s a ha, h.push_comm hesp]
  cases push (s.reg a) s with
  | none => exact h.raise_comm .ADR s
  | some t => exact congrArg _ (h.advance_comm 2 t)

theorem popl_comm (h : Transparent i f) (hesp : .esp ∈ uses i) {a : Reg} (ha : a ∈ uses i) (s : State) :
    execPopl a (f s) = mapNext f (execPopl a s) := by
  unfold execPopl
  rw [h.pop_comm hesp]
  cases pop s with
  | none => exact h.raise_comm .ADR s
  | some p => exact congrArg _ ((congrArg _ (h.setReg p.2 a ha p.1)).trans (h.advance_comm 2 _))

theorem call_comm (h : Transparent i f) (hesp : .esp ∈ uses i) (d : Word) (s : State) :
    execCall d (f s) = mapNext f (execCall d s) := by
  unfold execCall
  rw [h.memSize, h.pc, h.push_comm hesp, h.raise_comm]
  cases fetchOK s.memSize d.toInt with
  | false => rfl
  | true =>
    cases push (s.pc + 5) s with
    | none => rfl
    | some t => exact congrArg _ (h.setPc t d)

theorem ret_comm (h : Transparent i f) (hesp : .esp ∈ uses i) (s : State) : execRet (f s) = mapNext f (execRet s) := by
  unfold execRet
  rw [h.memSize, h.pop_comm hesp, h.raise_comm]
  cases pop s with
  | none => rfl
  | some p =>
    simp only [Option.map_some, Prod.map, id_eq]
    cases fetchOK s.memSize p.1.toInt with
    | false => rfl
    | true => exact congrArg _ (h.setPc p.2 p.1)

/-- A change that an instruction does not look at can be made after it as well as before it. -/
theorem exec_comm (h : Transparent i f) (s : State) : exec i (f s) = mapNext f (exec i s) := by
  cases i
  case halt => exact h.raise_comm .HLT s
  case nop => exact congrArg _ (h.advance_comm 1 s)
  case irmovl b v => exact congrArg _ ((congrArg _ (h.setReg s b (by simp [uses]) v)).trans (h.advance_comm 6 _))
  case rrmovl => exact h.moveIf_comm (c := .always) s rfl (by simp [uses]) (by simp [uses])
  case cmovle | cmovl | cmove | cmovne | cmovge | cmovg =>
    exact h.moveIf_comm s (congrArg _ (h.flags rfl s)) (by simp [uses]) (by simp [uses])
  case rmmovl => exact h.rmmovl_comm (by simp [uses]) (by simp [uses]) _ s
  case mrmovl => exact h.mrmovl_comm (by simp [uses]) (by simp [uses]) _ s
  case addl | subl | andl | xorl => exact h.aluReg_comm rfl (by simp [uses]) (by simp [uses]) _ s
  case iaddl | isubl | iandl | ixorl => exact h.aluImm_comm rfl (by simp [uses]) _ _ s
  case jmp d => exact h.jumpIf_comm (c := .always) s rfl d
  case jle d | jl d | je d | jne d | jge d | jg d => exact h.jumpIf_comm s (congrArg _ (h.flags rfl s)) d
  case call d => exact h.call_comm (by simp [uses]) d s
  case ret => exact h.ret_comm (by simp [uses]) s
  case pushl a => exact h.pushl_comm (by simp [uses]) (by simp [uses]) s
  case popl a => exact h.popl_comm (by simp [uses]) (by simp [uses]) s

end Transparent

/-! ### The changes -/

/-- No instruction looks at the step counter (R36). -/
theorem transparent_withCount (i : Instr) (n : Nat) : Transparent i (fun t => { t with stepCount := n }) := by
  constructor <;> intros <;> rfl

/-- No instruction looks at the budget (R9). -/
theorem transparent_withMaxSteps (i : Instr) (m : Option Nat) : Transparent i (fun t => { t with maxSteps := m }) := by
  constructor <;> intros <;> rfl

/-- An instruction that neither reads nor writes the flags does not look at them. -/
theorem transparent_withFlags {i : Instr} (hr : readsFlags i = false) (hw : writesFlags i = false) (f : Flags) :
    Transparent i (fun t => { t with flags := f }) := by
  constructor
  case flags => exact fun h => absurd (hr.symm.trans h) Bool.false_ne_true
  case setFlags => exact fun h => absurd (hw.symm.trans h) Bool.false_ne_true
  all_goals intros; rfl

/-- An instruction does not look at a register outside its list. -/
theorem transparent_setReg {i : Instr} {r : Reg} (hr : r ∉ uses i) (v : Word) :
    Transparent i (fun t => t.setReg r v) := by
  have hne {q : Reg} (hq : q ∈ uses i) : q ≠ r := fun e => hr (e ▸ hq)
  constructor
  case reg => exact fun s q hq => reg_setReg_of_ne s v (hne hq)
  case setReg => exact fun s q hq x => setReg_comm s v (hne hq).symm x
  all_goals intros; rfl

/-- Settles O24: a register outside the list of an instruction is one it does not look at. -/
theorem unusedRegistersAreNeitherReadNorWritten : Obligations.UnusedRegistersAreNeitherReadNorWritten :=
  fun _ s _ v hr => (transparent_setReg hr v).exec_comm s

/-- A writer of the flags overwrites all three, so it leaves the same state whatever they were. -/
theorem exec_withFlags_of_writesFlags {i : Instr} (hw : writesFlags i = true) (s : State) (f : Flags) :
    exec i { s with flags := f } = exec i s := by
  cases i
  case addl | subl | andl | xorl | iaddl | isubl | iandl | ixorl => rfl
  all_goals cases hw

theorem mapNext_mapNext (f g : State → State) (o : Outcome) : mapNext g (mapNext f o) = mapNext (g ∘ f) o := by
  cases o <;> rfl

/-- Settles O23: an instruction that does not read the flags writes all three, or does not look at them. -/
theorem flagsAreReadByConditionalsAlone : Obligations.FlagsAreReadByConditionalsAlone := by
  intro i s f hr
  cases hw : writesFlags i with
  | true => rw [exec_withFlags_of_writesFlags hw]
  | false =>
    rw [(transparent_withFlags hr hw f).exec_comm s, mapNext_mapNext]
    rfl

/-- Settles O11: an iteration counts by its fetch check, and no instruction looks at the counter. -/
theorem stepCounterCountsDecodedInstructions : Obligations.StepCounterCountsDecodedInstructions := by
  refine ⟨fun limit s => runEntry_stepCount s limit, fun s t h => ?_,
    fun i s n => (transparent_withCount i n).exec_comm s⟩
  obtain ⟨-, -, hit⟩ := step_eq_next_iff.mp h
  simpa only [canFetch_iff] using (iteration_counts hit).1

/-- An iteration does not look at the budget either. -/
theorem iteration_withMaxSteps (m : Option Nat) (s : State) :
    iteration { s with maxSteps := m } = mapNext (fun t => { t with maxSteps := m }) (iteration s) := by
  rcases iteration_cases s with ⟨hf, e⟩ | ⟨_, hf, hd, e⟩ | ⟨i, hf, hd, e⟩ <;> rw [e]
  · exact iteration_of_not_canFetch hf
  · exact iteration_of_decode_error hf hd
  · have executes : iteration { s with maxSteps := m } = exec i { countStep s with maxSteps := m } :=
      iteration_of_decode hf hd
    exact executes.trans ((transparent_withMaxSteps i m).exec_comm (countStep s))

theorem step_of_limitReached {s : State} (hs : s.status = .AOK) (hl : s.limitReached = true) :
    step s = .fault .stepLimitExceeded := by
  simp [step, hs, hl, Status.stopFault]

/-- Settles O10: the budget is looked at between iterations alone. -/
theorem stepBudgetStopsTheRunAndNothingElse : Obligations.StepBudgetStopsTheRunAndNothingElse := by
  refine fun s hs => ⟨fun limit hmax hle => step_of_limitReached hs ?_, fun hl => ?_⟩
  · simp [State.limitReached, hmax, hle]
  · have unlimited : step { s with maxSteps := none } = iteration { s with maxSteps := none } :=
      step_of_running hs rfl
    rw [step_of_running hs (limitReached_false_iff.mpr hl), unlimited]
    exact iteration_withMaxSteps s.maxSteps { s with maxSteps := none }

end Sys2Proof.Machine
end

section
/-! Loads, stores and the stack on good operands (O31, O32, O38 to O44): the next state, and what it leaves alone. -/

namespace Sys2Proof.Machine

variable (s : State) (a b : Reg) (v d : Word)

/-! ### The next state on good operands -/

/-- A write to one register leaves the other seven. -/
theorem setReg_keepsRegs : KeepsRegsExcept [a] s (s.setReg a v) := fun _ hr =>
  reg_setReg_of_ne s v (List.ne_of_not_mem_cons hr)

/-- The state a good popl leaves, but for pc (R211, R213). -/
def popped : State := (s.setReg .esp (s.reg .esp + 4)).setReg a (s.word (s.reg .esp).toNat)

@[simp] theorem popped_reg_same : (popped s a).reg a = s.word (s.reg .esp).toNat := reg_setReg_same ..

theorem popped_esp (ha : a ≠ .esp) : (popped s a).reg .esp = s.reg .esp + 4 := by
  rw [popped, reg_setReg_of_ne _ _ ha.symm, reg_setReg_same]

/-- A pop writes esp and its register alone. -/
theorem popped_keepsRegs : KeepsRegsExcept [a, .esp] s (popped s a) := by
  intro r hr
  obtain ⟨hra, hresp⟩ : r ≠ a ∧ r ≠ .esp := by simpa using hr
  rw [popped, reg_setReg_of_ne _ _ hra, reg_setReg_of_ne _ _ hresp]

theorem exec_rmmovl_of_wordOK (h : wordOK s.memSize (effectiveAddress s b v).toInt = true) :
    exec (.rmmovl a b v) s = .next (advance 6 (s.setWord (effectiveAddress s b v).toNat (s.reg a))) := if_pos h

theorem exec_mrmovl_of_wordOK (h : wordOK s.memSize (effectiveAddress s b v).toInt = true) :
    exec (.mrmovl a b v) s = .next (advance 6 (s.setReg a (s.word (effectiveAddress s b v).toNat))) := if_pos h

theorem exec_pushl_of_pushOK (h : pushOK s.memSize (s.reg .esp).toInt = true) :
    exec (.pushl a) s = .next (advance 2 (pushed s (s.reg a))) := by
  rcases pushl_cases s a with ⟨-, e⟩ | ⟨h', -⟩
  · exact e
  · cases h.symm.trans h'

theorem exec_popl_of_popOK (h : popOK s.memSize (s.reg .esp).toInt = true) :
    exec (.popl a) s = .next (advance 2 (popped s a)) := by
  rcases popl_cases s a with ⟨-, e⟩ | ⟨h', -⟩
  · exact e
  · cases h.symm.trans h'

theorem exec_call_of_ok (hd : fetchOK s.memSize d.toInt = true) (h : pushOK s.memSize (s.reg .esp).toInt = true) :
    exec (.call d) s = .next { pushed s (s.pc + 5) with pc := d } := by
  rcases call_cases s d with ⟨-, -, e⟩ | ⟨h' | h', -⟩
  · exact e
  · cases hd.symm.trans h'
  · cases h.symm.trans h'

theorem exec_ret_of_ok (h : popOK s.memSize (s.reg .esp).toInt = true) (hword : s.word (s.reg .esp).toNat = d)
    (hd : fetchOK s.memSize d.toInt = true) :
    exec .ret s = .next { s.setReg .esp (s.reg .esp + 4) with pc := d } := by
  subst hword
  rcases ret_cases s with ⟨-, -, e⟩ | ⟨h' | h', -⟩
  · exact e
  · cases h.symm.trans h'
  · cases hd.symm.trans h'

/-! ### Load and store -/

/-- R61: the effective address as a number. -/
theorem effectiveAddress_toNat : (effectiveAddress s b v).toNat = ((s.reg b).toNat + v.toNat) % 2 ^ 32 :=
  BitVec.toNat_add ..

/-- Settles O31: the word bound gives the store, and a store leaves the rest of memory alone. -/
theorem rmmovlStoresItsRegister : Obligations.RmmovlStoresItsRegister := by
  refine fun s a b v => ⟨effectiveAddress_toNat s b v, fun hm h0 h1 => ?_⟩
  obtain ⟨holds, keepsOutside⟩ := setWord_holdsWord hm (effectiveAddress s b v).toNat (s.reg a)
  exact ⟨_, exec_rmmovl_of_wordOK s a b v (wordOK_iff.mpr ⟨h0, h1⟩), holds, rfl, keepsOutside, fun _ _ => rfl, rfl,
    rfl, rfl, rfl, rfl⟩

/-- Settles O32: the loaded word is the one its four bytes hold, and a load writes one register. -/
theorem mrmovlLoadsItsRegister : Obligations.MrmovlLoadsItsRegister := by
  refine fun s a b v => ⟨effectiveAddress_toNat s b v, fun h0 h1 => ?_⟩
  obtain ⟨loaded, frame⟩ := advance_setReg_effect 6 a (s.word (effectiveAddress s b v).toNat) s
  exact ⟨_, exec_mrmovl_of_wordOK s a b v (wordOK_iff.mpr ⟨h0, h1⟩), (word_eq_iff_holdsWord s _ _).mp loaded.symm,
    frame⟩

/-! ### push and pop -/

@[simp] theorem pushed_esp : (pushed s v).reg .esp = s.reg .esp - 4 := by simp [pushed]

/-- R210: the pushed word stands below the old stack pointer, and a push writes one register and four bytes. -/
theorem pushed_effect (hm : Memory.wf s.mem = true) : HoldsWord (s.reg .esp - 4).toNat v (pushed s v) ∧
    KeepsMemoryOutside (s.reg .esp - 4).toNat s (pushed s v) ∧ KeepsRegsExcept [.esp] s (pushed s v) ∧
    KeepsFlags s (pushed s v) ∧ KeepsEngine s (pushed s v) := by
  obtain ⟨holds, keepsOutside⟩ :=
    setWord_holdsWord (s := s.setReg .esp (s.reg .esp - 4)) hm (s.reg .esp - 4).toNat v
  exact ⟨holds, keepsOutside, setReg_keepsRegs s .esp _, rfl, rfl, rfl, rfl, rfl⟩

/-- Settles O38: both checks pass, and the call is a push and a transfer. -/
theorem callPushesItsReturnAddress : Obligations.CallPushesItsReturnAddress := fun s d hm h0 h1 h2 h3 =>
  ⟨_, exec_call_of_ok s d (fetchOK_iff.mpr ⟨h0, h1⟩) (pushOK_iff.mpr ⟨h2, h3⟩), rfl, pushed_esp s (s.pc + 5),
    pushed_effect s (s.pc + 5) hm⟩

/-- Settles O40: the pushed value is read before esp moves. -/
theorem pushlStoresTheOldRegister : Obligations.PushlStoresTheOldRegister := fun s a hm h0 h1 =>
  ⟨_, exec_pushl_of_pushOK s a (pushOK_iff.mpr ⟨h0, h1⟩), pushed_esp s (s.reg a), rfl,
    pushed_effect s (s.reg a) hm⟩

/-- Settles O39: the stacked word is `d`, so both checks pass. -/
theorem retPopsItsTarget : Obligations.RetPopsItsTarget := by
  intro s d hword h0 h1 h2 h3
  have popped := (word_eq_iff_holdsWord s _ d).mpr hword
  exact ⟨_, exec_ret_of_ok s d (popOK_iff.mpr ⟨h0, h1⟩) popped (fetchOK_iff.mpr ⟨h2, h3⟩), rfl,
    reg_setReg_same .., setReg_keepsRegs s .esp _, rfl, fun _ => rfl, rfl, rfl, rfl, rfl⟩

/-- Settles O41: the register is written after esp has moved. -/
theorem poplLoadsThePoppedWord : Obligations.PoplLoadsThePoppedWord := by
  intro s a h0 h1
  have loaded : HoldsWord (s.reg .esp).toNat ((popped s a).reg a) s :=
    (word_eq_iff_holdsWord ..).mp (popped_reg_same s a).symm
  exact ⟨_, exec_popl_of_popOK s a (popOK_iff.mpr ⟨h0, h1⟩), loaded, popped_esp s a, rfl, popped_keepsRegs s a, rfl,
    fun _ => rfl, rfl, rfl, rfl, rfl⟩

/-! ### Push and pop together -/

/-- A stack pointer that can be pushed from can be popped from four lower. -/
theorem popOK_sub_four {n : Nat} {e : Word} (h0 : 4 ≤ e.toInt) (h1 : e.toInt < (n : Int)) :
    popOK n (e - 4).toInt = true := by
  rw [popOK_iff, toInt_sub_four h0]
  omega

/-- A stack pointer that can be popped from can be pushed from four higher. -/
theorem pushOK_add_four {n : Nat} (hn : Config.LegalMemSize n) {e : Word} (h0 : 0 ≤ e.toInt)
    (h1 : e.toInt < (n : Int) - 4) : pushOK n (e + 4).toInt = true := by
  obtain ⟨-, hn⟩ := hn
  rw [pushOK_iff, show (4 : Word) = BitVec.ofNat 32 4 from rfl, toInt_add_ofNat h0 (by omega)]
  omega

/-- A push is undone by the next pop (R214). -/
theorem popl_after_pushl (hm : Memory.wf s.mem = true) (h0 : 4 ≤ (s.reg .esp).toInt)
    (h1 : (s.reg .esp).toInt < (s.memSize : Int)) :
    ∃ t u, exec (.pushl a) s = .next t ∧ exec (.popl b) t = .next u ∧ u.reg b = s.reg a ∧
      (b ≠ .esp → u.reg .esp = s.reg .esp) := by
  have hpop : popOK (pushed s (s.reg a)).memSize ((pushed s (s.reg a)).reg .esp).toInt = true := by
    rw [pushed_esp]
    exact popOK_sub_four h0 h1
  have stacked : (pushed s (s.reg a)).word ((pushed s (s.reg a)).reg .esp).toNat = s.reg a := by
    rw [pushed_esp]
    exact (word_eq_iff_holdsWord _ _ _).mpr (pushed_effect s (s.reg a) hm).1
  refine ⟨_, _, exec_pushl_of_pushOK s a (pushOK_iff.mpr ⟨h0, h1⟩), exec_popl_of_popOK _ b hpop, ?_, fun hb => ?_⟩
  · exact (popped_reg_same ..).trans stacked
  · rw [reg_advance, popped_esp _ b hb, reg_advance, pushed_esp, BitVec.sub_add_cancel]

/-- A pop is undone by the next push of the popped register (R214). -/
theorem pushl_after_popl (hn : Config.LegalMemSize s.memSize) (hm : Memory.wf s.mem = true) (ha : a ≠ .esp)
    (h0 : 0 ≤ (s.reg .esp).toInt) (h1 : (s.reg .esp).toInt < (s.memSize : Int) - 4) :
    ∃ t u, exec (.popl a) s = .next t ∧ exec (.pushl a) t = .next u ∧ u.reg .esp = s.reg .esp ∧ KeepsMemory s u := by
  have hesp : (popped s a).reg .esp = s.reg .esp + 4 := popped_esp s a ha
  have hback : (popped s a).reg .esp - 4 = s.reg .esp := by rw [hesp, BitVec.add_sub_cancel]
  have hpush : pushOK s.memSize ((popped s a).reg .esp).toInt = true := hesp ▸ pushOK_add_four hn h0 h1
  have hword : HoldsWord ((popped s a).reg .esp - 4).toNat ((popped s a).reg a) (popped s a) := by
    rw [← word_eq_iff_holdsWord, hback, popped_reg_same]
    rfl
  refine ⟨_, _, exec_popl_of_popOK s a (popOK_iff.mpr ⟨h0, h1⟩), exec_pushl_of_pushOK _ a hpush, ?_, fun x => ?_⟩
  · rw [reg_advance, pushed_esp, reg_advance, hback]
  · exact byte_setWord_of_holdsWord (s := popped s a) hm hword x

/-- Settles O42. -/
theorem pushAndPopUndoEachOther : Obligations.PushAndPopUndoEachOther := ⟨popl_after_pushl, pushl_after_popl⟩

/-- Settles O43: the stacked word is the return address, and esp - 4 can be popped from. -/
theorem retReturnsBehindItsCall : Obligations.RetReturnsBehindItsCall := by
  intro s d hm h0 h1 h2 h3 h4 h5
  obtain ⟨t, ht, -, hesp, hword, -, -, -, -, -, hsize, -⟩ := callPushesItsReturnAddress s d hm h0 h1 h2 h3
  refine ⟨t, ht, fun u husize huesp hbytes => ?_⟩
  rw [hsize] at husize
  rw [hesp] at huesp hbytes
  have stacked : HoldsWord (u.reg .esp).toNat (s.pc + 5) u := fun k hk => by rw [huesp, hbytes k hk, hword k hk]
  have hpop : popOK u.memSize (u.reg .esp).toInt = true := by
    rw [husize, huesp]
    exact popOK_sub_four h2 h3
  have hfetch : fetchOK u.memSize (s.pc + 5).toInt = true := by
    rw [husize]
    exact fetchOK_iff.mpr ⟨h4, h5⟩
  refine ⟨_, exec_ret_of_ok u _ hpop ((word_eq_iff_holdsWord u _ _).mpr stacked) hfetch, rfl, ?_⟩
  exact (reg_setReg_same ..).trans (by rw [huesp, BitVec.sub_add_cancel])

/-- Settles O44: a word that stands in memory is seen by every window over it. -/
theorem storesAreSeenByTheNextFetch : Obligations.StoresAreSeenByTheNextFetch := by
  refine fun s hm => ⟨fun a b v h0 h1 => ?_, fun h0 h1 => ⟨fun a => ?_, fun d h2 h3 => ?_⟩⟩
  · obtain ⟨t, ht, hword, -⟩ := (rmmovlStoresItsRegister s a b v).2 hm h0 h1
    exact ⟨t, ht, windowsShow_of_holdsWord hword⟩
  · obtain ⟨t, ht, -, -, hword, -⟩ := pushlStoresTheOldRegister s a hm h0 h1
    exact ⟨t, ht, windowsShow_of_holdsWord hword⟩
  · obtain ⟨t, ht, -, -, hword, -⟩ := callPushesItsReturnAddress s d hm h2 h3 h0 h1
    exact ⟨t, ht, windowsShow_of_holdsWord hword⟩

end Sys2Proof.Machine
end

section
/-! The arithmetic results (O34, O35), the conditions after them (O36), and the jumps (O37). -/

namespace Sys2Proof.Machine

/-! ### add and subtract -/

/-- R161: the literal OF formula on numbers. -/
theorem aluOverflow_add_eq (x r : Word) :
    aluOverflow .add x r = decide (0x80000000 ≤ x.toNat ∧ r.toNat < 0x80000000) := by
  rw [aluOverflow, signBit_eq, signBit_eq, ← decide_not, ← Bool.decide_and]
  simp

/-- R162: the literal OF formula on numbers. -/
theorem aluOverflow_sub_eq (x r : Word) :
    aluOverflow .sub x r = decide (x.toNat < 0x80000000 ∧ 0x80000000 ≤ r.toNat) := by
  rw [aluOverflow, signBit_eq, signBit_eq, ← decide_not, ← Bool.decide_and]
  simp

/-- D5: the sum wraps. -/
theorem aluResult_add_toNat (x y : Word) : (aluResult .add x y).toNat = (x.toNat + y.toNat) % 2 ^ 32 :=
  BitVec.toNat_add x y

/-- D5: the difference wraps. -/
theorem aluResult_sub_toNat (x y : Word) :
    ((aluResult .sub x y).toNat : Int) = ((x.toNat : Int) - (y.toNat : Int)) % 2 ^ 32 := by
  have hx := x.isLt
  have hy := y.isLt
  rw [aluResult, BitVec.toNat_sub]
  omega

/-- R161: an instruction that is the ALU's add. -/
theorem advance_alu_add_effect {o : Outcome} {n : Nat} {v : Word} {b : Reg} {s : State}
    (ho : o = .next (advance n (alu .add v b s))) :
    ∃ t, o = .next t ∧ (t.reg b).toNat = ((s.reg b).toNat + v.toNat) % 2 ^ 32 ∧
      t.flags.ZF = decide ((t.reg b).toNat = 0) ∧ t.flags.SF = decide (0x80000000 ≤ (t.reg b).toNat) ∧
      t.flags.OF = decide (0x80000000 ≤ (s.reg b).toNat ∧ (t.reg b).toNat < 0x80000000) ∧
      t.pc = s.pc + BitVec.ofNat 32 n ∧ KeepsRegsExcept [b] s t ∧ KeepsMemory s t ∧ KeepsEngine s t := by
  obtain ⟨t, ht, result, hZF, hSF, overflow, pcAndFrame⟩ := advance_alu_effect ho
  have sum : (t.reg b).toNat = ((s.reg b).toNat + v.toNat) % 2 ^ 32 := by rw [result, aluResult_add_toNat]
  exact ⟨t, ht, sum, hZF, hSF, overflow.trans (aluOverflow_add_eq ..), pcAndFrame⟩

/-- R162: an instruction that is the ALU's subtract. -/
theorem advance_alu_sub_effect {o : Outcome} {n : Nat} {v : Word} {b : Reg} {s : State}
    (ho : o = .next (advance n (alu .sub v b s))) :
    ∃ t, o = .next t ∧ ((t.reg b).toNat : Int) = (((s.reg b).toNat : Int) - (v.toNat : Int)) % 2 ^ 32 ∧
      t.flags.ZF = decide ((t.reg b).toNat = 0) ∧ t.flags.SF = decide (0x80000000 ≤ (t.reg b).toNat) ∧
      t.flags.OF = decide ((s.reg b).toNat < 0x80000000 ∧ 0x80000000 ≤ (t.reg b).toNat) ∧
      t.pc = s.pc + BitVec.ofNat 32 n ∧ KeepsRegsExcept [b] s t ∧ KeepsMemory s t ∧ KeepsEngine s t := by
  obtain ⟨t, ht, result, hZF, hSF, overflow, pcAndFrame⟩ := advance_alu_effect ho
  have difference : ((t.reg b).toNat : Int) = (((s.reg b).toNat : Int) - (v.toNat : Int)) % 2 ^ 32 := by
    rw [result, aluResult_sub_toNat]
  exact ⟨t, ht, difference, hZF, hSF, overflow.trans (aluOverflow_sub_eq ..), pcAndFrame⟩

/-- Settles O34: the two operand forms differ in the second operand and the length alone. -/
theorem addWritesResultAndFlags : Obligations.AddWritesResultAndFlags := by
  intro s a b v m hm
  simp only [List.mem_cons, List.not_mem_nil, or_false] at hm
  rcases hm with rfl | rfl
  · exact advance_alu_add_effect (aluReg_eq s .add a b)
  · exact advance_alu_add_effect (aluImm_eq s .add b v)

/-- Settles O35: the two operand forms differ in the second operand and the length alone. -/
theorem subWritesResultAndFlags : Obligations.SubWritesResultAndFlags := by
  intro s a b v m hm
  simp only [List.mem_cons, List.not_mem_nil, or_false] at hm
  rcases hm with rfl | rfl
  · exact advance_alu_sub_effect (aluReg_eq s .sub a b)
  · exact advance_alu_sub_effect (aluImm_eq s .sub b v)

/-! ### What the conditions test after arithmetic (R175) -/

/-- The values of the four conditions that compare. -/
def ConditionsAre (f : Flags) (l le ge g : Bool) : Prop :=
  condHolds .l f = l ∧ condHolds .le f = le ∧ condHolds .ge f = ge ∧ condHolds .g f = g

/-- Zero is not negative. -/
theorem beq_zero_and_signBit (r : Word) : (r == 0 && signBit r) = false := by
  rw [Bool.and_eq_false_imp, beq_iff_eq]
  rintro rfl
  rfl

/-- After an addition SF = OF says that neither the old destination `x` nor the result is negative. -/
theorem conditionsAre_add (x y : Word) : ConditionsAre (aluFlags .add x y)
    (signBit (aluResult .add x y) || signBit x)
    (aluResult .add x y == 0 || signBit (aluResult .add x y) || signBit x)
    (!(signBit (aluResult .add x y) || signBit x) || aluResult .add x y == 0)
    (!(aluResult .add x y == 0) && !signBit (aluResult .add x y) && !signBit x) := by
  have table : ∀ z n m : Bool,
      ConditionsAre ⟨z, n, m && !n⟩ (n || m) (z || n || m) (!(n || m) || z) (!z && !n && !m) := by
    unfold ConditionsAre
    decide
  exact table ..

/-- After a subtraction SF differs from OF where the old destination `x` and the result are both negative. -/
theorem conditionsAre_sub (x y : Word) : ConditionsAre (aluFlags .sub x y)
    (signBit (aluResult .sub x y) && signBit x)
    (aluResult .sub x y == 0 || (signBit (aluResult .sub x y) && signBit x))
    (!(signBit (aluResult .sub x y) && signBit x))
    (!(aluResult .sub x y == 0) && !(signBit (aluResult .sub x y) && signBit x)) := by
  have table : ∀ z n m : Bool, (z && n) = false →
      ConditionsAre ⟨z, n, !m && n⟩ (n && m) (z || (n && m)) (!(n && m)) (!z && !(n && m)) := by
    unfold ConditionsAre
    decide
  exact table _ _ _ (beq_zero_and_signBit _)

/-- Where OF is false the conditions compare the result with 0. -/
theorem conditionsAre_of_no_overflow {op : AluOp} (hOF : ∀ x r, aluOverflow op x r = false) (x y : Word) :
    ConditionsAre (aluFlags op x y) (signBit (aluResult op x y))
      (aluResult op x y == 0 || signBit (aluResult op x y)) (!signBit (aluResult op x y))
      (!(aluResult op x y == 0) && !signBit (aluResult op x y)) := by
  have table : ∀ z n : Bool, (z && n) = false → ConditionsAre ⟨z, n, false⟩ n (z || n) (!n) (!z && !n) := by
    unfold ConditionsAre
    decide
  rw [aluFlags, hOF]
  exact table _ _ (beq_zero_and_signBit _)

/-- R175 for an instruction that is the ALU on some operands, told which row of the table each kind of operation has. -/
theorem advance_alu_conditions {o : Outcome} {n : Nat} {op : AluOp} {v : Word} {b : Reg} {s : State}
    (ho : o = .next (advance n (alu op v b s))) {isAdd isSub isBitwise : Prop} (hadd : isAdd → op = .add)
    (hsub : isSub → op = .sub) (hbit : isBitwise → ∀ x r, aluOverflow op x r = false) :
    ∃ t, o = .next t ∧ condHolds .e t.flags = (t.reg b == 0) ∧ condHolds .ne t.flags = !(t.reg b == 0) ∧
      (isAdd → ConditionsAre t.flags (signBit (t.reg b) || signBit (s.reg b))
        (t.reg b == 0 || signBit (t.reg b) || signBit (s.reg b))
        (!(signBit (t.reg b) || signBit (s.reg b)) || t.reg b == 0)
        (!(t.reg b == 0) && !signBit (t.reg b) && !signBit (s.reg b))) ∧
      (isSub → ConditionsAre t.flags (signBit (t.reg b) && signBit (s.reg b))
        (t.reg b == 0 || (signBit (t.reg b) && signBit (s.reg b))) (!(signBit (t.reg b) && signBit (s.reg b)))
        (!(t.reg b == 0) && !(signBit (t.reg b) && signBit (s.reg b)))) ∧
      (isBitwise → ConditionsAre t.flags (signBit (t.reg b)) (t.reg b == 0 || signBit (t.reg b)) (!signBit (t.reg b))
        (!(t.reg b == 0) && !signBit (t.reg b))) := by
  have result : (advance n (alu op v b s)).reg b = aluResult op (s.reg b) v := by simp
  refine ⟨_, ho, ?_⟩
  rw [result]
  refine ⟨rfl, rfl, fun h => ?_, fun h => ?_, fun h => conditionsAre_of_no_overflow (hbit h) _ _⟩
  · cases hadd h; exact conditionsAre_add ..
  · cases hsub h; exact conditionsAre_sub ..

/-- Settles O36: each of the eight instructions is the ALU on its operands, and belongs to one row of the table. -/
theorem conditionsAfterArithmeticTestTheseSigns : Obligations.ConditionsAfterArithmeticTestTheseSigns := by
  intro s a b v i hi
  simp only [List.mem_cons, List.not_mem_nil, or_false] at hi
  rcases hi with rfl | rfl | rfl | rfl | rfl | rfl | rfl | rfl
  · exact advance_alu_conditions (aluReg_eq s .add a b) (by simp) (by simp) (by simp)
  · exact advance_alu_conditions (aluImm_eq s .add b v) (by simp) (by simp) (by simp)
  · exact advance_alu_conditions (aluReg_eq s .sub a b) (by simp) (by simp) (by simp)
  · exact advance_alu_conditions (aluImm_eq s .sub b v) (by simp) (by simp) (by simp)
  · exact advance_alu_conditions (aluReg_eq s .and a b) (by simp) (by simp) fun _ _ _ => rfl
  · exact advance_alu_conditions (aluImm_eq s .and b v) (by simp) (by simp) fun _ _ _ => rfl
  · exact advance_alu_conditions (aluReg_eq s .xor a b) (by simp) (by simp) fun _ _ _ => rfl
  · exact advance_alu_conditions (aluImm_eq s .xor b v) (by simp) (by simp) fun _ _ _ => rfl

/-! ### The jumps -/

/-- R191: a jump whose target is good where it is taken sets pc alone. -/
theorem jumpIf_effect (c : CondCode) (d : Word) (s : State)
    (h : condHolds c s.flags = true → 0 ≤ d.toInt ∧ d.toInt ≤ (s.memSize : Int) - 6) :
    ∃ t, jumpIf c d s = .next t ∧ t.pc = (if condHolds c s.flags then d else s.pc + 5) ∧
      KeepsRegsExcept [] s t ∧ KeepsFlags s t ∧ KeepsMemory s t ∧ KeepsEngine s t := by
  rcases jumpIf_cases s c d with ⟨hc, e⟩ | ⟨hc, -, e⟩ | ⟨hc, hd, -⟩
  · exact ⟨_, e, by simp [hc], fun _ _ => rfl, rfl, fun _ => rfl, rfl, rfl, rfl, rfl⟩
  · exact ⟨_, e, by simp [hc], fun _ _ => rfl, rfl, fun _ => rfl, rfl, rfl, rfl, rfl⟩
  · cases (fetchOK_iff.mpr (h hc)).symm.trans hd

/-- Settles O37: each jump is `jumpIf` with its own condition code. -/
theorem jumpsGoToTheirTargetExactlyWhenTaken : Obligations.JumpsGoToTheirTargetExactlyWhenTaken := by
  intro s d m hm
  simp only [List.mem_cons, List.not_mem_nil, or_false] at hm
  rcases hm with rfl | rfl | rfl | rfl | rfl | rfl | rfl
  · exact ⟨rfl, jumpIf_effect .always d s⟩
  · exact ⟨rfl, jumpIf_effect .le d s⟩
  · exact ⟨rfl, jumpIf_effect .l d s⟩
  · exact ⟨rfl, jumpIf_effect .e d s⟩
  · exact ⟨rfl, jumpIf_effect .ne d s⟩
  · exact ⟨rfl, jumpIf_effect .ge d s⟩
  · exact ⟨rfl, jumpIf_effect .g d s⟩

end Sys2Proof.Machine
end

section
/-! Reset, the run entry, the loader and the reader (O45 to O50). -/

namespace Sys2Proof.Machine

/-- R41: every register is 0 after reset. -/
theorem reg_resetWith (size : Nat) (r : Reg) : (State.resetWith size).reg r = 0 := by
  simp [State.resetWith, State.reg]

/-- Settles O45. -/
theorem resetClearsEverything : Obligations.ResetClearsEverything :=
  ⟨fun size => ⟨reg_resetWith size, rfl, rfl, rfl, rfl, rfl, rfl, fun _ => rfl⟩, ⟨_, rfl⟩, fun _ => rfl⟩

/-- R56 at the reset pc: memory must hold one whole window. -/
theorem canFetch_resetWith (size : Nat) : (State.resetWith size).canFetch = decide (6 ≤ size) := by
  have hpc : (State.resetWith size).pc.toInt = 0 := rfl
  rw [Bool.eq_iff_iff, canFetch_iff, decide_eq_true_iff, hpc]
  change 0 ≤ (0 : Int) ∧ 0 ≤ (size : Int) - 6 ↔ 6 ≤ size
  omega

/-- Settles O46: the zero byte at address 0 is halt. -/
theorem emptyMachineHaltsAtOnce : Obligations.EmptyMachineHaltsAtOnce := by
  intro size
  have hf := canFetch_resetWith size
  have hd : decode (fetchWindow (State.resetWith size)) = .ok .halt := (decode_eq_halt_iff _).mpr rfl
  rw [step_of_running rfl rfl]
  by_cases h : 6 ≤ size
  · rw [if_pos h]
    exact iteration_of_decode (hf.trans (decide_eq_true h)) hd
  · rw [if_neg h]
    exact iteration_of_not_canFetch (hf.trans (decide_eq_false h))

/-- Settles O47. -/
theorem runEntryResetsStatusPcAndStepOnly : Obligations.RunEntryResetsStatusPcAndStepOnly := fun limit s =>
  ⟨runEntry_status s limit, rfl, runEntry_stepCount s limit, fun r _ => reg_runEntry s r limit,
    runEntry_flags s limit, fun a => byte_runEntry s a limit, runEntry_memSize s limit, runEntry_maxSteps s limit⟩

/-- Settles O48: the loader answers when the buffer fits, and memory then reads as the written buffer. -/
theorem loaderWritesExactlyItsBuffer : Obligations.LoaderWritesExactlyItsBuffer := by
  refine fun s a bytes hm => ⟨load_eq_none_iff.mpr, fun hfit => ?_⟩
  obtain ⟨inside, outside⟩ := Memory.read_writeBytes hm a bytes
  exact ⟨_, load_eq_some_iff.mpr ⟨hfit, rfl⟩, inside, outside, fun _ _ => rfl, rfl, ⟨rfl, rfl, rfl, rfl⟩, rfl⟩

/-- R25: the by-index view is the register file at the register's own index. -/
theorem readIndex_of_eq_index {k : Fin 8} {r : Reg} (h : k = r.index) (s : State) : readIndex s k = s.reg r := by
  subst h
  rfl

/-- R44: reading by name is reading the register of that name. -/
theorem readName_of_regOfName {name : String} {r : Reg} (h : regOfName name = some r) (s : State) :
    readName s name = some (s.reg r) := by
  rw [readName, h, Option.map_some]

/-- Settles O49: each name of R21 names the register of its index. -/
theorem namesAndIndicesReadTheSameRegisters : Obligations.NamesAndIndicesReadTheSameRegisters := by
  intro s m hm
  simp only [List.mem_cons, List.not_mem_nil, or_false] at hm
  rcases hm with rfl | rfl | rfl | rfl | rfl | rfl | rfl | rfl
  all_goals exact ⟨readName_of_regOfName (by decide) s, readIndex_of_eq_index (by rfl) s⟩

/-- Settles O50. -/
theorem readerSeesMemoryInsideItsSizeAndTheStatusForms :
    Obligations.ReaderSeesMemoryInsideItsSizeAndTheStatusForms :=
  ⟨fun _ _ => ⟨fun h => if_pos h, fun h => if_neg (Nat.not_lt.mpr h)⟩, rfl, rfl⟩

end Sys2Proof.Machine
end
